-- ==== Sys2Proof/Word.lean ====
section
/-! DEFINITION. The words of the GF(2^8) core: field elements, command words, response data, status codes. -/

namespace Sys2Proof

/-- A field element or a table index: 8 bits, bit `i` the coefficient of `x^i` (R11, R53). -/
abbrev Element := BitVec 8

/-- A command word: 24 bits, `op` in 23:16, `a` in 15:8, `b` in 7:0 (R52). -/
abbrev CmdWord := BitVec 24

/-- The data of a response: 256 bits (R59). -/
abbrev Data := BitVec 256

/-- The status of a response as the port `rsp_status` carries it: 2 bits (R48, R115). -/
abbrev StatusCode := BitVec 2

end Sys2Proof
end

