-- ==== Sys2Proof/Syntax.lean ====
section
/-! DEFINITION. The seven commands of the core, one constructor per row of spec/opcode_table.json (R54). -/

namespace Sys2Proof

/-- The commands. Every operand is an 8-bit field of the command word as it stands (R53). -/
inductive Instr where
  /-- `MULP a, b`: multiply by the bit-serial algorithm (R67). -/
  | mulp (a b : Element)
  /-- `BUILD g`: build the table pair from `g` (R76). -/
  | build (g : Element)
  /-- `MULT a, b`: multiply by table lookup (R87). -/
  | mult (a b : Element)
  /-- `INV a`: the multiplicative inverse by table lookup (R94). -/
  | inv (a : Element)
  /-- `FINDGEN`: the set of generators (R100). -/
  | findgen
  /-- `RDEXP e`: read one entry of `EXP` (R109). -/
  | rdexp (e : Element)
  /-- `RDLOG a`: read one entry of `LOG` (R110). -/
  | rdlog (a : Element)
  deriving DecidableEq, Repr

/-- The mnemonics of R54 and R62. -/
inductive Mnemonic where
  | mulp | build | mult | inv | findgen | rdexp | rdlog
  deriving DecidableEq, Repr

/-- A line of assembler text before its operands are checked (R62): operands are numerals of any size. -/
structure SourceCommand where
  mnemonic : Mnemonic
  operands : List Nat
  deriving DecidableEq, Repr

end Sys2Proof
end

