-- ==== Sys2Proof/WellFormed.lean ====
section
/-! DEFINITION. Which command words are legal (the match and mask rows of R54), and which source commands the
assembler accepts (R62). An `Instr` needs no check of its own: its operands are 8-bit values by type (R119). -/

namespace Sys2Proof

/-- One row of the match and mask table of R54. -/
structure Pattern where
  value : CmdWord
  mask : CmdWord
  deriving DecidableEq, Repr

/-- A word spells the command of a row when its masked bits are the row's (R54). -/
def Pattern.spells (p : Pattern) (w : CmdWord) : Bool := w &&& p.mask == p.value

/-- The row of each mnemonic, as R54 prints it. -/
def Mnemonic.pattern : Mnemonic → Pattern
  | .mulp => ⟨0x010000#24, 0xFF0000#24⟩
  | .build => ⟨0x020000#24, 0xFF00FF#24⟩
  | .mult => ⟨0x030000#24, 0xFF0000#24⟩
  | .inv => ⟨0x040000#24, 0xFF00FF#24⟩
  | .findgen => ⟨0x050000#24, 0xFFFFFF#24⟩
  | .rdexp => ⟨0x060000#24, 0xFF00FF#24⟩
  | .rdlog => ⟨0x070000#24, 0xFF00FF#24⟩

/-- All mnemonics, in the order of R54. -/
def Mnemonic.all : List Mnemonic := [.mulp, .build, .mult, .inv, .findgen, .rdexp, .rdlog]

/-- A word is legal when it matches one of the seven patterns; every other word is illegal (R56). -/
def legalWord (w : CmdWord) : Bool := Mnemonic.all.any fun m => m.pattern.spells w

/-- The mnemonic of a command. -/
def Instr.mnemonic : Instr → Mnemonic
  | .mulp _ _ => .mulp
  | .build _ => .build
  | .mult _ _ => .mult
  | .inv _ => .inv
  | .findgen => .findgen
  | .rdexp _ => .rdexp
  | .rdlog _ => .rdlog

/-- The number of operands of a mnemonic (R62). -/
def Mnemonic.arity : Mnemonic → Nat
  | .mulp => 2
  | .build => 1
  | .mult => 2
  | .inv => 1
  | .findgen => 0
  | .rdexp => 1
  | .rdlog => 1

/-- The line has as many operands as its mnemonic takes (R62). -/
def SourceCommand.countOk (c : SourceCommand) : Bool := c.operands.length == c.mnemonic.arity

/-- Every operand is in 0 to 255: the rejection at the boundary of R53, R62 and R119. -/
def SourceCommand.rangeOk (c : SourceCommand) : Bool := c.operands.all fun n => n < 256

/-- A source command the assembler accepts. -/
def SourceCommand.wellFormed (c : SourceCommand) : Bool := c.countOk && c.rangeOk

end Sys2Proof
end

