-- ==== Sys2Proof/Decode.lean ====
section
/-! DEFINITION. The decoder of R61, total on every 24-bit word, and the encoder. -/

namespace Sys2Proof

/-- `cmd.op` (R52). -/
def opField (w : CmdWord) : Element := w.extractLsb' 16 8

/-- `cmd.a` (R52). -/
def aField (w : CmdWord) : Element := w.extractLsb' 8 8

/-- `cmd.b` (R52). -/
def bField (w : CmdWord) : Element := w.extractLsb' 0 8

/-- Why a word spells no command (R55, R56). The host is told `E_ILLEGAL` and no more (R115). -/
inductive IllegalWord where
  /-- `op` is 0x00 or 0x08 to 0xFF (R56). -/
  | unknownOpcode
  /-- The `a` field of a command without a first operand is not 0 (R55). -/
  | nonzeroA
  /-- The `b` field of a command without a second operand is not 0 (R55). -/
  | nonzeroB
  deriving DecidableEq, Repr

/-- The command of a word whose `b` field must be 0 (R55). -/
def ifZeroB (b : Element) (i : Instr) : Except IllegalWord Instr :=
  if b = 0#8 then .ok i else .error .nonzeroB

/-- The decoder (R61). -/
def decode (w : CmdWord) : Except IllegalWord Instr :=
  let op := opField w
  let a := aField w
  let b := bField w
  if op = 0x01#8 then .ok (.mulp a b)
  else if op = 0x02#8 then ifZeroB b (.build a)
  else if op = 0x03#8 then .ok (.mult a b)
  else if op = 0x04#8 then ifZeroB b (.inv a)
  else if op = 0x05#8 then (if a = 0#8 then ifZeroB b .findgen else .error .nonzeroA)
  else if op = 0x06#8 then ifZeroB b (.rdexp a)
  else if op = 0x07#8 then ifZeroB b (.rdlog a)
  else .error .unknownOpcode

/-- The word with the three fields given: `{op, a, b}` (R52). -/
def commandWord (op a b : Element) : CmdWord := op ++ a ++ b

/-- The encoder: the inverse of the decoder on the seven constructors (R61). -/
def encode : Instr → CmdWord
  | .mulp a b => commandWord 0x01#8 a b
  | .build g => commandWord 0x02#8 g 0x00#8
  | .mult a b => commandWord 0x03#8 a b
  | .inv a => commandWord 0x04#8 a 0x00#8
  | .findgen => commandWord 0x05#8 0x00#8 0x00#8
  | .rdexp e => commandWord 0x06#8 e 0x00#8
  | .rdlog a => commandWord 0x07#8 a 0x00#8

/-- The command word of a table word of `nbits` bits: a word is presented whole on a parallel port, so no byte order
arises (R35); bits above `nbits` are 0 and the port has 24 (R48). -/
def tableWord (nbits w : Nat) : CmdWord := BitVec.ofNat 24 (w % 2 ^ nbits)

/-- The instruction the decoder reads from a word numbered as spec/opcode_table.json numbers it. -/
def decodeTableWord (nbits w : Nat) : Option Instr := (decode (tableWord nbits w)).toOption

end Sys2Proof
end

