-- ==== Sys2Proof/Config.lean ====
section
/-! DEFINITION. The parameters of the core (R8), none of them configurable at run time, and the free values of the model. -/

namespace Sys2Proof.Config

/-- `MODULUS`, x^8+x^4+x^3+x+1: what the multiplier's product is reduced by; it stands in no datapath (R3). -/
def modulus : BitVec 9 := 0x11B#9

/-- `RED`, x^4+x^3+x+1: the constant the multiplier exclusive-ors in (R3, R8). -/
def red : BitVec 8 := 0x1B#8

/-- `NITER`, the multiplier's iterations (R8). -/
def multiplierIterations : Nat := 8

/-- `ORD`, the order of the field's multiplicative group and the modulus of exponents (R8). -/
def groupOrder : Nat := 255

/-- The entries of `EXP`, and the slots of `LOG` (R8). -/
def tableEntries : Nat := 256

/-- The byte of `EXP` at an index after a reset edge. R134 leaves these bytes unspecified, so this is a FREE VALUE
(log entry 8): `opaque`, without a body, of the number of the reset and the index. -/
opaque unspecifiedExp : Nat → Nat → BitVec 8

/-- The byte of `LOG` at an index after a reset edge: a FREE VALUE, as `unspecifiedExp` (R134, log entry 8). -/
opaque unspecifiedLog : Nat → Nat → BitVec 8

end Sys2Proof.Config
end

