-- ==== Sys2Proof/Machine/State.lean ====
section
/-! DEFINITION. The state of the machine as plain data: the core's table pair and port, and the host that drives it. -/

namespace Sys2Proof.Machine

/-- The three faults of the core (R114, R115). A fault is a response and the core goes on: it is no `Fault` below. -/
inductive CoreFault where
  /-- `E_ILLEGAL`, code 1: the command word spells no command (R116). -/
  | illegal
  /-- `E_NOTABLES`, code 2: a table was needed and no table pair exists (R117). -/
  | noTables
  /-- `E_NOLOG`, code 3: a logarithm was needed and its entry is unwritten (R118). -/
  | noLog
  deriving DecidableEq, Repr

/-- A response word (R59): status `OK` with data, or a fault, whose data is 0. -/
inductive Response where
  | ok (data : Data)
  | fault (f : CoreFault)
  deriving DecidableEq, Repr

/-- Where the port handshake stands (R49 to R51, R134). Execution is atomic (R30), so a command in flight is one whose
response is pending (log entry 3). -/
inductive Port where
  /-- `rst` was high at the last edge: `cmd_ready` = 0 and `rsp_valid` = 0 (R134). -/
  | inReset
  /-- No command in flight: `cmd_ready` = 1, `rsp_valid` = 0. -/
  | ready
  /-- A command was accepted and its response is not yet delivered: `cmd_ready` = 0, `rsp_valid` = 1 (R50, R51). -/
  | responding (r : Response)
  deriving DecidableEq, Repr

/-- What the host drives on the input ports at one edge (R48). `cmd` is `none` while `cmd_valid` = 0: what stands on the
port is then ignored (R49). -/
structure Pins where
  rst : Bool
  cmd : Option CmdWord
  rspReady : Bool
  deriving DecidableEq, Repr

/-- A table memory: (index, byte) pairs, indices strictly rising, no entry equal to what an unlisted index reads as. -/
abbrev Memory := List Host.Cell

/-- The machine. `tv`, `exp`, `log`, `logv` are the whole architectural state of the core (R19); `port` is the
handshake (R31, R51); the rest is the host's side (R10) and the model's counter of resets, named in the log. -/
structure State where
  /-- `TV`, tables valid (R23). -/
  tv : Bool
  /-- `EXP`, 256 entries of 8 bits (R20). -/
  exp : Memory
  /-- `LOG`, 256 entries of 8 bits (R21). -/
  log : Memory
  /-- `LOGV`, 256 written tags; bit `v` is the tag of `LOG[v]` (R22). -/
  logv : BitVec 256
  /-- Command in flight, response pending (R31, R32). -/
  port : Port
  /-- The HOST's coming inputs, one for each edge (log entry 2). -/
  script : List Pins
  /-- The HOST's word on `cmd` that the core has not accepted (R49, log entry 4). -/
  offered : Option CmdWord
  /-- The words accepted since the last reset, oldest first (the HOST's record, log entry 11). -/
  accepted : List CmdWord
  /-- The responses delivered since the last reset, oldest first (the HOST's record, log entry 11). -/
  received : List Response
  /-- The MODEL's count of reset edges, which only picks free values (log entry 8). -/
  resets : Nat
  deriving DecidableEq, Repr

/-- The machine right after reset (R32, R134), at the first moment the core drives `cmd_ready` = 1. The bytes of `EXP`
and `LOG` are the model's choice (log entry 7). -/
def State.reset : State where
  tv := false
  exp := []
  log := []
  logv := 0#256
  port := .ready
  script := []
  offered := none
  accepted := []
  received := []
  resets := 0

/-- The reasons a step stops with a fault. The core itself never stops: its faults are responses (R121). -/
inductive Fault where
  /-- Raised by an edge at which the host changes or withdraws a word it offered before the core accepted it. R49 forbids
  it and the spec gives no behaviour for it (U15: the model has no move). Safe: the model stops where hardware goes on. -/
  | hostDroppedCommand
  deriving DecidableEq, Repr

/-- The reasons an instruction has no meaning. -/
inductive Refusal where
  /-- An arm of `exec` not modelled yet. No arm raises it: every command has its meaning. Safe. -/
  | notModelled (mnemonic : String)
  deriving DecidableEq, Repr

/-- The outcome of a step of this machine. -/
abbrev Outcome := Host.Outcome State Fault Refusal

end Sys2Proof.Machine
end

