-- ==== Sys2Proof/Machine/Ops.lean ====
section
/-! DEFINITION. The named operations over the table memories, the tags, the flag `TV` and the response port; ending a
command with a result (`respond`) and with a fault (`raise`); the reset edge and the handshake moves. -/

namespace Sys2Proof.Machine

/-- What a listed-nowhere index reads as: the bytes after reset are unspecified and unobservable (R32); the model's
choice is 0 (log entry 10). -/
def unlistedByte : BitVec 8 := 0#8

/-- The byte of a memory at an index. -/
def Memory.read : Memory → Nat → BitVec 8
  | [], _ => unlistedByte
  | (b, w) :: m, a => if b = a then w else Memory.read m a

/-- The memory without any entry for the index. -/
def Memory.erase (a : Nat) : Memory → Memory
  | [] => []
  | (b, w) :: m => if b = a then Memory.erase a m else (b, w) :: Memory.erase a m

/-- The memory with the entry put in its place, replacing the one the index had. -/
def Memory.put (a : Nat) (v : BitVec 8) : Memory → Memory
  | [] => [(a, v)]
  | (b, w) :: m =>
    if a < b then (a, v) :: (b, w) :: m
    else if a = b then (a, v) :: m
    else (b, w) :: Memory.put a v m

/-- `MemWrite(T:a, 1, v)` (R13), keeping the canonical form. -/
def Memory.write (m : Memory) (a : Nat) (v : BitVec 8) : Memory :=
  if v = unlistedByte then Memory.erase a m else Memory.put a v m

/-- The canonical form from an index on: indices rising, below 256 (R33), no entry equal to the unlisted byte. -/
def Memory.wfFrom : Nat → Memory → Bool
  | _, [] => true
  | lo, (a, v) :: m => decide (lo ≤ a) && decide (a < 256) && decide (v ≠ unlistedByte) && Memory.wfFrom (a + 1) m

/-- The canonical form. -/
def Memory.wf (m : Memory) : Bool := Memory.wfFrom 0 m

/-- The memory whose byte at each index below `n` is the function's value. -/
def Memory.fill (f : Nat → BitVec 8) : Nat → Memory
  | 0 => []
  | n + 1 => Memory.write (Memory.fill f n) n (f n)

/-- `EXP[i]` (R13). -/
def State.expAt (s : State) (i : Nat) : Element := Memory.read s.exp i

/-- `LOG[v]` (R13). -/
def State.logAt (s : State) (v : Element) : BitVec 8 := Memory.read s.log v.toNat

/-- `LOGV[v]` (R22). -/
def State.tagged (s : State) (v : Element) : Bool := s.logv.getLsbD v.toNat

/-- `TV <- t`. -/
def State.setTv (s : State) (t : Bool) : State := { s with tv := t }

/-- `EXP[i] <- v`. -/
def State.setExp (s : State) (i : Nat) (v : Element) : State := { s with exp := Memory.write s.exp i v }

/-- `LOG[v] <- e`. -/
def State.setLog (s : State) (v : Element) (e : BitVec 8) : State :=
  { s with log := Memory.write s.log v.toNat e }

/-- `LOGV[v] <- 1`. -/
def State.setTag (s : State) (v : Element) : State := { s with logv := s.logv ||| BitVec.twoPow 256 v.toNat }

/-- `LOGV[v] <- 0` for every `v` (R79). -/
def State.clearTags (s : State) : State := { s with logv := 0#256 }

/-- The core raises `rsp_valid` with a response and holds it (R50). -/
def State.present (s : State) (r : Response) : State := { s with port := .responding r }

/-- `zext_256` of an element: the data of an element result (R13, R60). -/
def elementData (v : Element) : Data := v.setWidth 256

/-- `respond(v)`: the command ends with status `OK` and the data (R13). -/
def respond (d : Data) (s : State) : Outcome := .next (s.present (.ok d))

/-- `raise`: TAKING A FAULT, the core's whole trap entry (R121). No architectural state changes, nothing is saved, and
the response carries the fault's code with data 0. There is no return from it: the core is ready for the next command
once the response is delivered (R124). -/
def raise (f : CoreFault) (s : State) : Outcome := .next (s.present (.fault f))

/-- The status codes (R115). -/
def Response.status : Response → StatusCode
  | .ok _ => 0#2
  | .fault .illegal => 1#2
  | .fault .noTables => 2#2
  | .fault .noLog => 3#2

/-- The data of a response: 0 when the status is a fault code (R59). -/
def Response.data : Response → Data
  | .ok d => d
  | .fault _ => 0#256

/-- `cmd_ready` (R48, R51, R134). -/
def State.cmdReady (s : State) : Bool := s.port = .ready

/-- The response on the response port; none while `rsp_valid` = 0 (R50). -/
def State.pending (s : State) : Option Response :=
  match s.port with
  | .responding r => some r
  | _ => none

/-- `rsp_valid` (R48, R50). -/
def State.rspValid (s : State) : Bool := s.pending.isSome

/-- `rsp_status`; none while `rsp_valid` = 0, when the port's value is unspecified and no response (R50, U12). -/
def State.rspStatus (s : State) : Option StatusCode := s.pending.map Response.status

/-- `rsp_data`; none while `rsp_valid` = 0 (R50, U12). -/
def State.rspData (s : State) : Option Data := s.pending.map Response.data

/-- The host's coming inputs replaced. -/
def State.withScript (s : State) (ps : List Pins) : State := { s with script := ps }

/-- The host's word stays on `cmd` unaccepted, or `cmd_valid` is 0 (R49). -/
def State.offer (s : State) (c : Option CmdWord) : State := { s with offered := c }

/-- Acceptance of a command word: the host's record grows and the word is no longer on offer (R49). -/
def State.accept (s : State) (w : CmdWord) : State :=
  { s with offered := none, accepted := s.accepted ++ [w] }

/-- Delivery of the pending response: the core is ready for the next command (R50, R51, R124). -/
def State.deliver (s : State) (r : Response) : State :=
  { s with port := .ready, received := s.received ++ [r] }

/-- The first edge with `rst` = 0 after a reset: the core drives `cmd_ready` = 1 (R134). -/
def State.leaveReset (s : State) : State := { s with port := .ready }

/-- An edge with `rst` = 1 (R134): `TV` and all tags cleared; no command in flight, no response pending, so a command
that was in flight is abandoned without a response (R136); `EXP` and `LOG` are left with bytes nothing constrains. The
host's duty to hold a word ends (log entry 5) and its record starts anew (log entry 11). -/
def State.takeReset (s : State) : State :=
  { s with
    tv := false
    exp := Memory.fill (Config.unspecifiedExp s.resets) Config.tableEntries
    log := Memory.fill (Config.unspecifiedLog s.resets) Config.tableEntries
    logv := 0#256
    port := .inReset
    offered := none
    accepted := []
    received := []
    resets := s.resets + 1 }

/-- The host withdraws or changes a word it offered and the core did not accept yet, which R49 forbids. -/
def State.breaksHold (s : State) (p : Pins) : Bool := s.offered.isSome && s.offered != p.cmd

end Sys2Proof.Machine
end

