-- ==== Sys2Proof/Machine/Flags.lean ====
section
/-! DEFINITION. Flags. The core has no status flags (R17); the one flag the source names is the multiplier's transient
overflow flag, a local value of one iteration. -/

namespace Sys2Proof.Machine

/-- `hi`, the "overflow flag": bit 7 of `a` before the shift (R17, R68). -/
def overflowFlag (a : Element) : Bool := a.getLsbD 7

end Sys2Proof.Machine
end

