-- ==== Sys2Proof/Machine/Operands.lean ====
section
/-! DEFINITION. How operands become table indices (R41): the whole of the core's addressing. An operand is used as it
stands, without extension or scaling (R53). -/

namespace Sys2Proof.Machine

/-- The index of `EXP` that `MULT` reads: `(la + lb) mod 255` on natural numbers, without wrap (R88, R90). -/
def multIndex (la lb : BitVec 8) : Nat := (la.toNat + lb.toNat) % Config.groupOrder

/-- The index of `EXP` that `INV` reads: `255 - la`, without reduction (R95, R96). -/
def invIndex (la : BitVec 8) : Nat := Config.groupOrder - la.toNat

end Sys2Proof.Machine
end

