-- ==== Sys2Proof/Machine/PolynomialMultiplier.lean ====
section
/-! DEFINITION. The polynomial multiplier: the function `mulp` and the command `MULP` (40_polynomial_multiplier.md). -/

namespace Sys2Proof.Machine

/-- One iteration's new `a`: shift left into 9 bits, fold when the overflow flag was set, keep the low 8 bits
(R68, R69). -/
def timesX (a : Element) : Element :=
  let t : BitVec 9 := a.setWidth 9 <<< 1
  let folded := if overflowFlag a then t ^^^ Config.red.setWidth 9 else t
  folded.setWidth 8

/-- The iterations left, from `a`, `b` and the accumulator `p`. The accumulation uses `a` before the shift (R68). -/
def mulpLoop : Nat → Element → Element → Element → Element
  | 0, _, _, p => p
  | n + 1, a, b, p => mulpLoop n (timesX a) (b >>> 1) (if b.getLsbD 0 then p ^^^ a else p)

/-- `mulp(a0, b0)`: eight iterations, whatever the operands (R68). -/
def mulp (a0 b0 : Element) : Element := mulpLoop Config.multiplierIterations a0 b0 0#8

/-- `MULP a, b` (R67). -/
def execMulp (a b : Element) (s : State) : Outcome := respond (elementData (mulp a b)) s

end Sys2Proof.Machine
end

