-- ==== Sys2Proof/Machine/GeneratorFinder.lean ====
section
/-! DEFINITION. The generator finder: the order function `ord` and the command `FINDGEN` (44_generator_finder.md). -/

namespace Sys2Proof.Machine

/-- The loop of R101 with a bound on its tests: `acc` holds `g` to the power `k`; none when the bound runs out. -/
def ordLoop (g : Element) : Nat → Element → Nat → Option Nat
  | 0, _, _ => none
  | n + 1, acc, k => if acc = 0x01#8 then some k else ordLoop g n (mulp acc g) (k + 1)

/-- `ord(g)` (R101, R102). At most 254 multiplications are needed when `g` is not 0 (R105); for 0, which the finder never
tests, the loop of R101 does not end and the answer is none (log entry 12). -/
def ord (g : Element) : Option Nat := ordLoop g 255 g 1

/-- The result map after the candidates 2 to `n + 1` (R103). -/
def generatorsUpTo : Nat → Data
  | 0 => 0#256
  | n + 1 =>
    if ord (BitVec.ofNat 8 (n + 2)) = some Config.groupOrder then generatorsUpTo n ||| BitVec.twoPow 256 (n + 2)
    else generatorsUpTo n

/-- `FINDGEN` (R100, R103): the 254 candidates 2 to 255, with the polynomial multiplier and no table (R104). -/
def execFindgen (s : State) : Outcome := respond (generatorsUpTo 254) s

end Sys2Proof.Machine
end

