-- ==== Sys2Proof/Machine/Inverse.lean ====
section
/-! DEFINITION. The inverse operator: the command `INV` (43_inverse.md). -/

namespace Sys2Proof.Machine

/-- `INV a` (R95): the inverse of 0 is the sentinel 0. -/
def execInv (a : Element) (s : State) : Outcome :=
  if s.tv = false then raise .noTables s
  else if a = 0x00#8 then respond (elementData 0x00#8) s
  else if s.tagged a = false then raise .noLog s
  else respond (elementData (s.expAt (invIndex (s.logAt a)))) s

end Sys2Proof.Machine
end

