-- ==== Sys2Proof/Machine/TableBuilder.lean ====
section
/-! DEFINITION. The table builder: the command `BUILD` (41_table_builder.md). -/

namespace Sys2Proof.Machine

/-- Before the loop: the old pair ceases to exist, no tag is set, `EXP[0]` is 1 (R77, R79). -/
def buildStart (s : State) : State := ((s.setTv false).clearTags).setExp 0 0x01#8

/-- `LOG[v] <- i mod 255` with its tag, suppressed for element 0 (R77, R81). -/
def buildLogEntry (i : Nat) (v : Element) (s : State) : State :=
  if v = 0x00#8 then s else (s.setLog v (BitVec.ofNat 8 (i % Config.groupOrder))).setTag v

/-- Iteration `i` of the loop (R77). -/
def buildIteration (g : Element) (i : Nat) (s : State) : State :=
  let v := mulp g (s.expAt (i - 1))
  buildLogEntry i v (s.setExp i v)

/-- The state after iterations 1 to `n` (R77). -/
def buildUpTo (g : Element) (s : State) : Nat → State
  | 0 => buildStart s
  | n + 1 => buildIteration g (n + 1) (buildUpTo g s n)

/-- The algorithm of `BUILD`: 255 iterations whatever `g` is, then `TV <- 1` (R77). -/
def buildTables (g : Element) (s : State) : State := (buildUpTo g s 255).setTv true

/-- `BUILD g` (R76): every `g` is accepted (R78); the data of the response is 0 (R60). -/
def execBuild (g : Element) (s : State) : Outcome := respond 0#256 (buildTables g s)

end Sys2Proof.Machine
end

