-- ==== Sys2Proof/Machine/TableMultiplier.lean ====
section
/-! DEFINITION. The table-based multiplier: the command `MULT` (42_table_multiplier.md). -/

namespace Sys2Proof.Machine

/-- `MULT a, b`, with its tests in the order of R88 and R89: tables, zero operands, tags. -/
def execMult (a b : Element) (s : State) : Outcome :=
  if s.tv = false then raise .noTables s
  else if a = 0x00#8 ∨ b = 0x00#8 then respond (elementData 0x00#8) s
  else if s.tagged a = false then raise .noLog s
  else if s.tagged b = false then raise .noLog s
  else respond (elementData (s.expAt (multIndex (s.logAt a) (s.logAt b)))) s

end Sys2Proof.Machine
end

