-- ==== Sys2Proof/Machine/TableRead.lean ====
section
/-! DEFINITION. Reading the tables: the commands `RDEXP` and `RDLOG` (45_table_read.md). -/

namespace Sys2Proof.Machine

/-- `RDEXP e` (R109). -/
def execRdexp (e : Element) (s : State) : Outcome :=
  if s.tv = false then raise .noTables s
  else respond (elementData (s.expAt e.toNat)) s

/-- `RDLOG a` (R110). -/
def execRdlog (a : Element) (s : State) : Outcome :=
  if s.tv = false then raise .noTables s
  else if s.tagged a = false then raise .noLog s
  else respond (elementData (s.logAt a)) s

end Sys2Proof.Machine
end

