-- ==== Sys2Proof/Machine/Dispatch.lean ====
section
/-! DEFINITION. One arm per command, each one call of its meaning. -/

namespace Sys2Proof.Machine

def exec (i : Instr) (s : State) : Host.Outcome State Fault Refusal :=
  match i with
  | .mulp a b => Sys2Proof.Machine.execMulp a b s
  | .build g => Sys2Proof.Machine.execBuild g s
  | .mult a b => Sys2Proof.Machine.execMult a b s
  | .inv a => Sys2Proof.Machine.execInv a s
  | .findgen => Sys2Proof.Machine.execFindgen s
  | .rdexp e => Sys2Proof.Machine.execRdexp e s
  | .rdlog a => Sys2Proof.Machine.execRdlog a s

end Sys2Proof.Machine
end

