-- ==== Sys2Proof/Machine/Command.lean ====
section
/-! DEFINITION. A whole command (decode, then its meaning) and one sampled edge of the ports. -/

namespace Sys2Proof.Machine

/-- What an accepted word does: decoding comes first, and an illegal word is answered with `E_ILLEGAL` (R61, R116). -/
def runWord (w : CmdWord) (s : State) : Outcome :=
  match decode w with
  | .ok i => exec i s
  | .error _ => raise .illegal s

/-- One edge with the host's pins: reset wins (R134); a broken hold is no move of the model (U15); out of reset the core
becomes ready (R134); a pending response is delivered or held (R50); a word is accepted and run when the core is ready
(R49, R51). -/
def edge (p : Pins) (s : State) : Outcome :=
  if p.rst then .next s.takeReset
  else if s.breaksHold p then .fault .hostDroppedCommand
  else match s.port with
    | .inReset => .next (s.leaveReset.offer p.cmd)
    | .responding r => .next (if p.rspReady then (s.deliver r).offer p.cmd else s.offer p.cmd)
    | .ready =>
      match p.cmd with
      | none => .next (s.offer none)
      | some w => runWord w (s.accept w)

/-- The state with a word on `cmd` at the next edge and a core ready to accept it: no response pending and no other word
on offer. -/
def State.offerNext (s : State) (w : CmdWord) : State :=
  { s with script := ⟨false, some w, false⟩ :: s.script, port := .ready, offered := none }

end Sys2Proof.Machine
end

