-- ==== Sys2Proof/Machine/Step.lean ====
section
/-! DEFINITION. One step of the machine. -/

namespace Sys2Proof.Machine

/-- One step: the next edge of the host's script. When the script is over the host does nothing and the core, which never
acts without a command, keeps its state (R10, R133, R148). -/
def step (s : State) : Host.Outcome State Fault Refusal :=
  match s.script with
  | [] => .next s
  | p :: ps => edge p (s.withScript ps)

/-- The word placed where the next step takes its command: on `cmd` at the next edge, with the core ready. -/
def State.withFetchWord (s : State) (nbits w : Nat) : State := s.offerNext (tableWord nbits w)

end Sys2Proof.Machine
end

