-- ==== Sys2Proof/Machine/Assembler.lean ====
section
/-! DEFINITION. The textual form of a command (R62): what the assembler accepts on one line and the word it makes.
Points R62 leaves open are in log entry 16. -/

namespace Sys2Proof.Machine

/-- Why the assembler refuses a line. -/
inductive AsmError where
  /-- The line does not begin with one of the seven mnemonics in capitals. -/
  | unknownMnemonic
  /-- An operand is not a hexadecimal, binary or decimal numeral. -/
  | badNumeral
  /-- The line has more or fewer operands than its mnemonic takes. -/
  | operandCount
  /-- An operand is outside 0 to 255 (R53, R62, R119). -/
  | operandRange
  deriving DecidableEq, Repr

/-- The value of a digit, capital or small. -/
def digitValue (c : Char) : Option Nat :=
  let n := c.toNat
  if 48 ≤ n ∧ n ≤ 57 then some (n - 48)
  else if 65 ≤ n ∧ n ≤ 70 then some (n - 55)
  else if 97 ≤ n ∧ n ≤ 102 then some (n - 87)
  else none

/-- The value of the digits in a base, continuing from the value of the digits before them. -/
def digitsValue (base : Nat) : List Char → Nat → Option Nat
  | [], n => some n
  | c :: cs, n =>
    match digitValue c with
    | some d => if d < base then digitsValue base cs (n * base + d) else none
    | none => none

/-- A numeral: `0x` and two digits, `0b` and at least one binary digit, or decimal digits (R62). -/
def numeral (cs : List Char) : Option Nat :=
  match cs with
  | [] => none
  | ['0', 'x', h, l] => digitsValue 16 [h, l] 0
  | '0' :: 'b' :: d :: ds => digitsValue 2 (d :: ds) 0
  | d :: ds => digitsValue 10 (d :: ds) 0

/-- The line up to its comment (R62). -/
def stripComment (cs : List Char) : List Char := cs.takeWhile fun c => c != ';'

/-- The characters without blanks before the first other one. -/
def dropBlanks (cs : List Char) : List Char := cs.dropWhile fun c => c == ' '

/-- The characters without blanks at either end. -/
def trim (cs : List Char) : List Char := (dropBlanks (dropBlanks cs).reverse).reverse

/-- The pieces between commas; one piece when there is no comma. -/
def splitCommas : List Char → List (List Char)
  | [] => [[]]
  | c :: cs =>
    if c = ',' then [] :: splitCommas cs
    else match splitCommas cs with
      | [] => [[c]]
      | p :: ps => (c :: p) :: ps

/-- The operands of a line: none when nothing stands there, else one for each piece between commas (R62). -/
def operandTexts (cs : List Char) : List (List Char) := if trim cs = [] then [] else (splitCommas cs).map trim

/-- The spelling of a mnemonic, in capitals (R62). -/
def spelling : Mnemonic → List Char
  | .mulp => ['M', 'U', 'L', 'P']
  | .build => ['B', 'U', 'I', 'L', 'D']
  | .mult => ['M', 'U', 'L', 'T']
  | .inv => ['I', 'N', 'V']
  | .findgen => ['F', 'I', 'N', 'D', 'G', 'E', 'N']
  | .rdexp => ['R', 'D', 'E', 'X', 'P']
  | .rdlog => ['R', 'D', 'L', 'O', 'G']

/-- The mnemonic spelled by the characters. -/
def mnemonicOf (cs : List Char) : Option Mnemonic := Mnemonic.all.find? fun m => spelling m == cs

/-- The numerals of the operands, none when one of them is no numeral. -/
def numerals : List (List Char) → Option (List Nat)
  | [] => some []
  | t :: ts =>
    match numeral t, numerals ts with
    | some n, some ns => some (n :: ns)
    | _, _ => none

/-- The command of a source line; none for a line that holds no command. -/
def parseLine (line : List Char) : Except AsmError (Option SourceCommand) :=
  let text := trim (stripComment line)
  if text = [] then .ok none
  else match mnemonicOf (text.takeWhile fun c => c != ' ') with
    | none => .error .unknownMnemonic
    | some m =>
      match numerals (operandTexts (text.dropWhile fun c => c != ' ')) with
      | none => .error .badNumeral
      | some ns => .ok (some ⟨m, ns⟩)

/-- The command with the operands put into its 8-bit fields. -/
def operandsInto (m : Mnemonic) (ns : List Nat) : Option Instr :=
  match m, ns with
  | .mulp, [a, b] => some (.mulp (.ofNat 8 a) (.ofNat 8 b))
  | .build, [g] => some (.build (.ofNat 8 g))
  | .mult, [a, b] => some (.mult (.ofNat 8 a) (.ofNat 8 b))
  | .inv, [a] => some (.inv (.ofNat 8 a))
  | .findgen, [] => some .findgen
  | .rdexp, [e] => some (.rdexp (.ofNat 8 e))
  | .rdlog, [a] => some (.rdlog (.ofNat 8 a))
  | _, _ => none

/-- The word of a source command: the checks first, so that no operand is ever truncated (R53, R62, R119). -/
def assemble (c : SourceCommand) : Except AsmError CmdWord :=
  if c.countOk = false then .error .operandCount
  else if c.rangeOk = false then .error .operandRange
  else match operandsInto c.mnemonic c.operands with
    | some i => .ok (encode i)
    | none => .error .operandCount

/-- The word of a line of text; none for a line that holds no command (R62). -/
def assembleLine (line : List Char) : Except AsmError (Option CmdWord) :=
  match parseLine line with
  | .error e => .error e
  | .ok none => .ok none
  | .ok (some c) =>
    match assemble c with
    | .error e => .error e
    | .ok w => .ok (some w)

/-- The hexadecimal digit of a value below 16. -/
def hexDigit (n : Nat) : Char := if n < 10 then Char.ofNat (48 + n) else Char.ofNat (55 + n)

/-- An operand in the usual form: `0x` and two digits (R62). -/
def hexNumeral (v : Element) : List Char := ['0', 'x', hexDigit (v.toNat / 16), hexDigit (v.toNat % 16)]

/-- The operands of a command, in order. -/
def instrOperands : Instr → List Element
  | .mulp a b => [a, b]
  | .build g => [g]
  | .mult a b => [a, b]
  | .inv a => [a]
  | .findgen => []
  | .rdexp e => [e]
  | .rdlog a => [a]

/-- The operands' text: in the usual form, separated by a comma and a blank. -/
def operandListText : List Element → List Char
  | [] => []
  | [v] => hexNumeral v
  | v :: vs => hexNumeral v ++ [',', ' '] ++ operandListText vs

/-- A command as the examples of R63 write it. -/
def instrText (i : Instr) : List Char :=
  match instrOperands i with
  | [] => spelling i.mnemonic
  | vs => spelling i.mnemonic ++ [' '] ++ operandListText vs

end Sys2Proof.Machine
end

