-- ==== Sys2Proof/Safety.lean ====
section
/-! DEFINITION. The terms claims are stated in: what a table pair is, which states hold the same pair, what a run has
answered, and what a safe run is. -/

namespace Sys2Proof.Machine

/-- `g` to the power `n` under `mulp`. -/
def power (g : Element) : Nat → Element
  | 0 => 0x01#8
  | n + 1 => mulp g (power g n)

/-- A true generator: its multiplicative order is 255 (R14). -/
abbrev IsGenerator (g : Element) : Prop := ord g = some 255

/-- Two states hold the same architectural state (R19). -/
structure State.SameTables (s t : State) : Prop where
  tv : s.tv = t.tv
  exp : s.exp = t.exp
  log : s.log = t.log
  logv : s.logv = t.logv

/-- Two states agree on everything of the table pair that some command can read: `EXP` and the tags only when `TV` = 1,
an entry of `LOG` only when it is tagged (R32, U11). -/
structure State.TablesAgree (s t : State) : Prop where
  tv : s.tv = t.tv
  exp : s.tv = true → ∀ i, i < 256 → s.expAt i = t.expAt i
  logv : s.tv = true → s.logv = t.logv
  log : s.tv = true → ∀ v, s.tagged v = true → s.logAt v = t.logAt v

/-- `TV` = 1 and the last `BUILD` had operand `g`: the pair is the one a `BUILD g` left. -/
def State.BuiltBy (u : State) (g : Element) : Prop :=
  ∃ s t, exec (.build g) s = .next t ∧ u.SameTables t

/-- `j` is the last index of 1 to 255 at which `EXP` holds `v`. -/
structure State.LastIndex (u : State) (v : Element) (j : Nat) : Prop where
  low : 1 ≤ j
  high : j ≤ 255
  here : u.expAt j = v
  last : ∀ i, j < i → i ≤ 255 → u.expAt i ≠ v

/-- What R24 (c) says of the pair that a `BUILD g` leaves. -/
structure State.HoldsPowersOf (u : State) (g : Element) : Prop where
  exp_zero : u.expAt 0 = 0x01#8
  exp_one : u.expAt 1 = g
  exp_rec : ∀ i, 1 ≤ i → i ≤ 255 → u.expAt i = mulp g (u.expAt (i - 1))
  tag : ∀ v, v ≠ 0x00#8 → (u.tagged v = true ↔ ∃ i, 1 ≤ i ∧ i ≤ 255 ∧ u.expAt i = v)
  log : ∀ v, u.tagged v = true → ∃ j, u.LastIndex v j ∧ (u.logAt v).toNat = j % 255

/-- The invariant of R24: no tag for element 0, and the pair that exists is that of some operand. -/
structure State.TableInvariant (u : State) : Prop where
  tag_zero : u.tagged 0x00#8 = false
  built : u.tv = true → ∃ g, u.HoldsPowersOf g

/-- Both table memories are in canonical form. -/
structure State.MemoryInvariant (u : State) : Prop where
  exp : Memory.wf u.exp = true
  log : Memory.wf u.log = true

/-- A nonzero element that `EXP[1..255]` does not hold: a gap (R118). -/
def State.Gap (u : State) (v : Element) : Prop :=
  v ≠ 0x00#8 ∧ ∀ i, 1 ≤ i → i ≤ 255 → u.expAt i ≠ v

/-- The command answers `OK` with the data and changes nothing but the response port. -/
def Answers (i : Instr) (u : State) (d : Data) : Prop := exec i u = .next (u.present (.ok d))

/-- The command faults: its response is the fault and nothing else changes. -/
def Raises (i : Instr) (u : State) (f : CoreFault) : Prop := exec i u = .next (u.present (.fault f))

/-- The commands that read a table (R117). -/
def usesTables : Instr → Bool
  | .mult _ _ => true
  | .inv _ => true
  | .rdexp _ => true
  | .rdlog _ => true
  | .mulp _ _ => false
  | .build _ => false
  | .findgen => false

/-- The commands that the zero-operand shortcut ends (R122). -/
def zeroShortcut : Instr → Bool
  | .mult a b => a == 0x00#8 || b == 0x00#8
  | .inv a => a == 0x00#8
  | .mulp _ _ => false
  | .build _ => false
  | .findgen => false
  | .rdexp _ => false
  | .rdlog _ => false

/-- The tag of an operand whose logarithm the command needs is 0 (R118, R122). -/
def missingLog (s : State) : Instr → Bool
  | .mult a b => !s.tagged a || !s.tagged b
  | .inv a => !s.tagged a
  | .rdlog a => !s.tagged a
  | .mulp _ _ => false
  | .build _ => false
  | .findgen => false
  | .rdexp _ => false

/-- A run has faulted when any of its responses has a status other than `OK` (R125). -/
def hasFaulted (rs : List Response) : Bool := rs.any fun r => r.status != 0#2

/-- The responses delivered since the last reset and the one that is pending. -/
def State.answered (s : State) : List Response := s.received ++ s.pending.toList

/-- The words applied one by one from a state: the last state and the responses, in order (R51). -/
def replay (s : State) : List CmdWord → State × List Response
  | [] => (s, [])
  | w :: ws =>
    match runWord w s with
    | .next t => ((replay t ws).1, t.pending.toList ++ (replay t ws).2)
    | _ => (s, [])

/-- The run since the last reset is that of its commands: the pair is the one they leave and the responses are
theirs, in order (R43, R51, R148). -/
structure State.TranscriptInvariant (s : State) : Prop where
  tables : (replay State.reset s.accepted).1.TablesAgree s
  responses : (replay State.reset s.accepted).2 = s.answered

/-- A host that presents each word until it is accepted and then takes its response. -/
def hostScript : List CmdWord → List Pins
  | [] => []
  | w :: ws => ⟨false, some w, false⟩ :: ⟨false, none, true⟩ :: hostScript ws

/-- A host that never raises `rsp_ready` nor `rst`, and keeps offering what it offered. -/
def deafEdge (c : Option CmdWord) : Pins := ⟨false, c, false⟩

/-- A safe run of `n` steps: the host broke no duty, and no response so far is a fault. -/
def SafeRun (n : Nat) (s : State) : Prop :=
  ∃ t, Host.Core.run Sys2Proof.core n s = .next t ∧ hasFaulted t.answered = false

end Sys2Proof.Machine
end

