-- ==== Sys2Proof/Certificates/Slice0/Obligations.lean ====
section
/-! DEFINITION. The statements for the provers, each with the rule or the sentence of spec/ it comes from. -/

open Sys2Proof Sys2Proof.Machine

/-- A bit vector read as a polynomial with coefficients in the field of two elements: bit `i` is the coefficient of
`x^i` (R11, R70). -/
noncomputable def Sys2Proof.polynomialOf {n : Nat} (v : BitVec n) : Polynomial (ZMod 2) :=
  ∑ i ∈ Finset.range n, if v.getLsbD i then Polynomial.X ^ i else 0

/-! Encoding. -/

/-- Decode and encode agree: "`decode(encode(c))` = `c` for every command `c`" (R61, which the spec marks as derived). -/
def Obligations.DecodeInvertsEncode : Prop := ∀ i : Instr, decode (encode i) = .ok i

/-- "`encode(decode(w))` = `w` for every legal word `w`", and the decoder accepts exactly the legal words (R61). -/
def Obligations.EncodeInvertsDecode : Prop :=
  (∀ (w : CmdWord) (i : Instr), decode w = .ok i → encode i = w) ∧
    ∀ w : CmdWord, (∃ i, decode w = .ok i) ↔ legalWord w = true

/-- "The seven patterns are pairwise disjoint" (R54): no word matches two rows of the match and mask table. -/
def Obligations.PatternsDisjoint : Prop :=
  ∀ (w : CmdWord) (m n : Mnemonic), m.pattern.spells w = true → n.pattern.spells w = true → m = n

/-- Illegal words (R55, R56, R116): which they are by their fields, how many there are of each kind, and that each is
answered in every state with `E_ILLEGAL` (status 1, data 0) and nothing but the response changes. -/
def Obligations.IllegalWordsAnswered : Prop :=
  (∀ w : CmdWord, legalWord w = false ↔
    (opField w = 0x00#8 ∨ 0x08 ≤ (opField w).toNat ∨
      ((opField w = 0x02#8 ∨ opField w = 0x04#8 ∨ opField w = 0x06#8 ∨ opField w = 0x07#8) ∧ bField w ≠ 0x00#8) ∨
      (opField w = 0x05#8 ∧ (aField w ≠ 0x00#8 ∨ bField w ≠ 0x00#8)))) ∧
  (∀ (w : CmdWord) (s : State), legalWord w = false →
    runWord w s = .next (s.present (.fault .illegal)) ∧
      (Response.fault .illegal).status = 1#2 ∧ (Response.fault .illegal).data = 0#256) ∧
  (∀ m : Mnemonic, (Finset.univ.filter fun w : CmdWord => m.pattern.spells w = true).card =
    match m with
    | .mulp => 65536
    | .build => 256
    | .mult => 65536
    | .inv => 256
    | .findgen => 1
    | .rdexp => 256
    | .rdlog => 256) ∧
  (Finset.univ.filter fun w : CmdWord => legalWord w = true).card = 132097 ∧
  (Finset.univ.filter fun w : CmdWord => legalWord w = false).card = 16645119

/-- The words of R63 decode to the commands they stand for. -/
def Obligations.ExampleWordsDecode : Prop :=
  decode 0x018357#24 = .ok (.mulp 0x83#8 0x57#8) ∧ decode 0x020300#24 = .ok (.build 0x03#8) ∧
    decode 0x038357#24 = .ok (.mult 0x83#8 0x57#8) ∧ decode 0x040200#24 = .ok (.inv 0x02#8) ∧
    decode 0x050000#24 = .ok .findgen ∧ decode 0x060200#24 = .ok (.rdexp 0x02#8) ∧
    decode 0x070100#24 = .ok (.rdlog 0x01#8)

/-- The assembler's text of a command, in the form of R63, assembles to its word (R62). -/
def Obligations.AssemblerMakesTheWord : Prop :=
  ∀ i : Instr, assembleLine (instrText i) = .ok (some (encode i))

/-- An operand outside 0 to 255 is refused, and an accepted operand stands in its field unchanged, never truncated
(R53, R62). -/
def Obligations.AssemblerNeverTruncates : Prop :=
  (∀ c : SourceCommand, c.countOk = true → (∃ n ∈ c.operands, 255 < n) → assemble c = .error .operandRange) ∧
    ∀ c : SourceCommand, c.wellFormed = true →
      ∃ w i, assemble c = .ok w ∧ decode w = .ok i ∧ i.mnemonic = c.mnemonic ∧
        (instrOperands i).map BitVec.toNat = c.operands

/-! A step. -/

/-- A step runs the decoded instruction: at an edge with `rst` = 0 at which the core is ready and the host presents `w`
(the word it already offered, if it offered one), the step is `exec` of the command `w` decodes to, at the state whose
script has moved on, whose word is no longer on offer and is recorded as accepted (R49, R51). -/
def Obligations.StepRunsDecodedCommand : Prop :=
  ∀ (s : State) (p : Pins) (ps : List Pins) (w : CmdWord) (i : Instr),
    s.script = p :: ps → p.rst = false → p.cmd = some w → s.port = .ready →
    (s.offered = none ∨ s.offered = some w) → decode w = .ok i →
    step s = exec i { s with script := ps, offered := none, accepted := s.accepted ++ [w] }

/-- A word is accepted exactly at an edge with `rst` = 0, `cmd_valid` = 1 and `cmd_ready` = 1 (R49). -/
def Obligations.AcceptanceExactly : Prop :=
  ∀ (s t : State) (p : Pins) (ps : List Pins) (w : CmdWord),
    s.script = p :: ps → step s = .next t →
    (t.accepted = s.accepted ++ [w] ↔ p.rst = false ∧ p.cmd = some w ∧ s.cmdReady = true)

/-- A pending response is held until `rsp_ready`, then delivered; no word is accepted meanwhile, the delivering edge
included (R50, R51). -/
def Obligations.ResponseHeldUntilTaken : Prop :=
  ∀ (s : State) (p : Pins) (ps : List Pins) (r : Response),
    s.script = p :: ps → p.rst = false → (s.offered = none ∨ s.offered = p.cmd) → s.port = .responding r →
    s.cmdReady = false ∧
    (p.rspReady = false → step s = .next { s with script := ps, offered := p.cmd }) ∧
    (p.rspReady = true →
      step s = .next { s with script := ps, offered := p.cmd, port := .ready, received := s.received ++ [r] })

/-- A host that withdraws or changes an offered word breaks the duty of R49, and the model has no move (U15): the model's
choice is the fault of log entry 4. Every other step answers a next state. -/
def Obligations.OnlyBrokenHoldStops : Prop :=
  ∀ s : State,
    ((∃ p ps w, s.script = p :: ps ∧ p.rst = false ∧ s.offered = some w ∧ p.cmd ≠ some w) →
      step s = .fault .hostDroppedCommand) ∧
    ((∀ p ps w, s.script = p :: ps → p.rst = false → s.offered = some w → p.cmd = some w) → ∃ t, step s = .next t)

/-! The polynomial multiplier. -/

/-- `MULP a, b` answers in every state, changes nothing but the response, and the answer is the product of the two
polynomials reduced modulo x^8+x^4+x^3+x+1, with bits 255 to 8 zero (R67, R70, which the spec marks as derived). -/
def Obligations.MulpAnswersFieldProduct : Prop :=
  ∀ (a b : Element) (s : State), ∃ d : Data,
    exec (.mulp a b) s = .next (s.present (.ok d)) ∧ d.extractLsb' 8 248 = 0#248 ∧
    polynomialOf (d.extractLsb' 0 8) = (polynomialOf a * polynomialOf b) %ₘ polynomialOf Config.modulus

/-- The ring laws of R72: commutative, associative, identity, absorption, distributive over exclusive-or. -/
def Obligations.MulpRingLaws : Prop :=
  ∀ a b c : Element,
    mulp a b = mulp b a ∧ mulp (mulp a b) c = mulp a (mulp b c) ∧
    mulp a 0x01#8 = a ∧ mulp 0x01#8 a = a ∧ mulp a 0x00#8 = 0x00#8 ∧ mulp 0x00#8 a = 0x00#8 ∧
    mulp a (b ^^^ c) = mulp a b ^^^ mulp a c

/-- No zero divisors, and multiplication by a nonzero element is a bijection (R72). -/
def Obligations.MulpCancels : Prop :=
  (∀ a b : Element, mulp a b = 0x00#8 → a = 0x00#8 ∨ b = 0x00#8) ∧
    ∀ a : Element, a ≠ 0x00#8 → Function.Bijective fun b : Element => mulp a b

/-! The table builder. -/

/-- `BUILD g` answers `OK` with data 0 in every state and for every `g`, and leaves the pair of the algorithm of R77:
`EXP[0]` = 1, `EXP[i]` = `mulp(g, EXP[i-1])`, exactly the nonzero elements of `EXP[1..255]` tagged, each with the last
index that wrote it, modulo 255; element 0 has no log entry; `TV` = 1. -/
def Obligations.BuildRunsTheAlgorithm : Prop :=
  ∀ (g : Element) (s : State), ∃ t,
    exec (.build g) s = .next t ∧ t.pending = some (.ok 0#256) ∧ t.tv = true ∧ t.tagged 0x00#8 = false ∧
    t.HoldsPowersOf g

/-- The frame of `BUILD`: the host's side and the reset count unchanged; in `LOG` only bytes of tagged entries may
change, and `EXP` has no entry beyond 255 to change (R76). R79 leaves untagged bytes unspecified: that they keep their
value is log entry 9. -/
def Obligations.BuildFrame : Prop :=
  ∀ (g : Element) (s t : State), exec (.build g) s = .next t →
    t.script = s.script ∧ t.offered = s.offered ∧ t.accepted = s.accepted ∧ t.received = s.received ∧
    t.resets = s.resets ∧
    (∀ i, 255 < i → t.expAt i = s.expAt i) ∧ (∀ v, t.tagged v = false → t.logAt v = s.logAt v)

/-- A `BUILD` makes a fresh pair (R79): whatever pairs two states held, after a `BUILD` with the same operand no command
can tell them apart. So a second `BUILD` with the same operand changes nothing that can be read (R38). -/
def Obligations.BuildForgetsOldPair : Prop :=
  ∀ (g : Element) (s s' t t' : State),
    exec (.build g) s = .next t → exec (.build g) s' = .next t' → t.TablesAgree t'

/-- What a true generator leaves (R82). -/
def Obligations.GeneratorBuildsFullTables : Prop :=
  ∀ (g : Element) (s : State), IsGenerator g → ∃ t,
    exec (.build g) s = .next t ∧ t.tv = true ∧
    (∀ i, i ≤ 255 → t.expAt i = power g i) ∧ t.expAt 0 = 0x01#8 ∧ t.expAt 255 = 0x01#8 ∧
    (∀ i j, i < 255 → j < 255 → t.expAt i = t.expAt j → i = j) ∧
    (∀ i j, 1 ≤ i → i ≤ 255 → 1 ≤ j → j ≤ 255 → t.expAt i = t.expAt j → i = j) ∧
    (∀ v, v ≠ 0x00#8 ↔ ∃ i, i < 255 ∧ t.expAt i = v) ∧
    t.tagged 0x00#8 = false ∧ (∀ v, v ≠ 0x00#8 → t.tagged v = true) ∧
    ∀ i, i < 255 → (t.logAt (t.expAt i)).toNat = i

/-- What a nonzero operand of order `k` below 255 leaves (R83, which the spec marks as derived): `EXP` periodic with
period `k`, exactly the `k` elements of the subgroup tagged, `LOG[1]` = 0 and `LOG[g^j]` = `j + 255 - k`. -/
def Obligations.NonGeneratorLeavesGaps : Prop :=
  ∀ (g : Element) (s : State) (k : Nat), g ≠ 0x00#8 → ord g = some k → k < 255 →
    k ∈ [1, 3, 5, 15, 17, 51, 85] ∧ ∃ t,
    exec (.build g) s = .next t ∧ t.tv = true ∧
    (∀ i, i ≤ 255 → t.expAt i = power g i ∧ t.expAt i = t.expAt (i % k)) ∧ t.expAt 255 = 0x01#8 ∧
    (∀ v, t.tagged v = true ↔ ∃ j, j < k ∧ v = power g j) ∧
    (∀ i j, i < k → j < k → power g i = power g j → i = j) ∧
    t.logAt 0x01#8 = 0#8 ∧ ∀ j, 1 ≤ j → j ≤ k - 1 → (t.logAt (power g j)).toNat = j + 255 - k

/-- The two degenerate operands (R84, which the spec marks as derived), with what later commands then answer. -/
def Obligations.DegenerateBuilds : Prop :=
  (∀ s : State, ∃ t, exec (.build 0x01#8) s = .next t ∧ t.tv = true ∧ t.pending = some (.ok 0#256) ∧
    (∀ i, i ≤ 255 → t.expAt i = 0x01#8) ∧ t.logAt 0x01#8 = 0#8 ∧ ∀ v, t.tagged v = true ↔ v = 0x01#8) ∧
  ∀ s : State, ∃ t, exec (.build 0x00#8) s = .next t ∧ t.tv = true ∧ t.pending = some (.ok 0#256) ∧
    t.expAt 0 = 0x01#8 ∧ (∀ i, 1 ≤ i → i ≤ 255 → t.expAt i = 0x00#8) ∧ (∀ v, t.tagged v = false) ∧
    (∀ a b, a ≠ 0x00#8 → b ≠ 0x00#8 → Raises (.mult a b) t .noLog) ∧
    (∀ a, a ≠ 0x00#8 → Raises (.inv a) t .noLog) ∧
    ∀ e : Element, Answers (.rdexp e) t (elementData (if e = 0x00#8 then 0x01#8 else 0x00#8))

/-! The table-based multiplier. -/

/-- The algorithm of `MULT` in every state, tests in the order of R88: no tables, zero operand, tag missing, else the
sum of the logarithms modulo 255 looked up in `EXP`. Nothing but the response changes. -/
def Obligations.MultAlgorithm : Prop :=
  ∀ (a b : Element) (s : State),
    (s.tv = false → Raises (.mult a b) s .noTables) ∧
    (s.tv = true → (a = 0x00#8 ∨ b = 0x00#8) → Answers (.mult a b) s 0#256) ∧
    (s.tv = true → a ≠ 0x00#8 → b ≠ 0x00#8 → (s.tagged a = false ∨ s.tagged b = false) →
      Raises (.mult a b) s .noLog) ∧
    (s.tv = true → a ≠ 0x00#8 → b ≠ 0x00#8 → s.tagged a = true → s.tagged b = true →
      Answers (.mult a b) s (elementData (s.expAt (((s.logAt a).toNat + (s.logAt b).toNat) % 255))))

/-- Cross-consistency (R91): on the tables of a true generator `MULT` answers as `MULP` does, for every pair, and so is
commutative. -/
def Obligations.MultAgreesWithMulp : Prop :=
  ∀ (g : Element) (u : State), IsGenerator g → u.BuiltBy g → ∀ a b : Element,
    Answers (.mult a b) u (elementData (mulp a b)) ∧ exec (.mult a b) u = exec (.mulp a b) u ∧
    exec (.mult a b) u = exec (.mult b a) u

/-- `MULT` on the tables of any operand (R92, which the spec marks as derived): within the tagged elements it answers the
product; a gap with any nonzero element faults with `E_NOLOG`. -/
def Obligations.MultInsideTheSubgroup : Prop :=
  ∀ (g : Element) (u : State), u.BuiltBy g →
    (∀ a b, u.tagged a = true → u.tagged b = true → Answers (.mult a b) u (elementData (mulp a b))) ∧
    (∀ a b, u.Gap a → b ≠ 0x00#8 → Raises (.mult a b) u .noLog ∧ Raises (.mult b a) u .noLog)

/-- The index arithmetic of `MULT` and `INV` never leaves its range (R90, R96, which the spec marks as derived). -/
def Obligations.TableIndexRanges : Prop :=
  ∀ (u : State), u.TableInvariant → u.tv = true → ∀ a b, u.tagged a = true → u.tagged b = true →
    (u.logAt a).toNat + (u.logAt b).toNat ≤ 508 ∧
    multIndex (u.logAt a) (u.logAt b) ≤ 254 ∧
    multIndex (u.logAt a) (u.logAt b) =
      (if (u.logAt a).toNat + (u.logAt b).toNat ≤ 254 then (u.logAt a).toNat + (u.logAt b).toNat
       else (u.logAt a).toNat + (u.logAt b).toNat - 255) ∧
    1 ≤ invIndex (u.logAt a) ∧ invIndex (u.logAt a) ≤ 255 ∧ invIndex (u.logAt a) = (~~~(u.logAt a)).toNat

/-! The inverse operator. -/

/-- The algorithm of `INV` in every state (R95). Nothing but the response changes. -/
def Obligations.InvAlgorithm : Prop :=
  ∀ (a : Element) (s : State),
    (s.tv = false → Raises (.inv a) s .noTables) ∧
    (s.tv = true → a = 0x00#8 → Answers (.inv a) s 0#256) ∧
    (s.tv = true → a ≠ 0x00#8 → s.tagged a = false → Raises (.inv a) s .noLog) ∧
    (s.tv = true → a ≠ 0x00#8 → s.tagged a = true →
      Answers (.inv a) s (elementData (s.expAt (255 - (s.logAt a).toNat))))

/-- The inverse law (R97), with its consequences: on the tables of a true generator `INV a` is the inverse, `INV 1` is 1,
inverting twice gives `a` back, and another generator's tables give the same answers. -/
def Obligations.InverseLaw : Prop :=
  ∀ (g : Element) (u : State), IsGenerator g → u.BuiltBy g →
    Answers (.inv 0x00#8) u 0#256 ∧ Answers (.inv 0x01#8) u (elementData 0x01#8) ∧
    ∀ a : Element, a ≠ 0x00#8 → ∃ r : Element,
      Answers (.inv a) u (elementData r) ∧ mulp a r = 0x01#8 ∧ Answers (.mult a r) u (elementData 0x01#8) ∧
      Answers (.inv r) u (elementData a) ∧
      ∀ (h : Element) (v : State), IsGenerator h → v.BuiltBy h → Answers (.inv a) v (elementData r)

/-- `INV` on the tables of any operand (R98, which the spec marks as derived): a tagged element is inverted, a gap
faults with `E_NOLOG`. -/
def Obligations.InvInsideTheSubgroup : Prop :=
  ∀ (g : Element) (u : State), u.BuiltBy g →
    (∀ a, u.tagged a = true → ∃ r : Element, Answers (.inv a) u (elementData r) ∧ mulp a r = 0x01#8) ∧
    ∀ a, u.Gap a → Raises (.inv a) u .noLog

/-! The generator finder. -/

/-- `ord` finds the multiplicative order of every nonzero element, at most 255 (R101, R105); for 0 the loop
ends under no bound. -/
def Obligations.OrdIsTheOrder : Prop :=
  (∀ g : Element, g ≠ 0x00#8 → ∃ k, ord g = some k ∧ 1 ≤ k ∧ k ≤ 255 ∧ power g k = 0x01#8 ∧
    ∀ j, 1 ≤ j → j < k → power g j ≠ 0x01#8) ∧
  ∀ n : Nat, ordLoop 0x00#8 n 0x00#8 1 = none

/-- `FINDGEN` answers, in every state, the map whose bit `g` is 1 exactly for the candidates 2 to 255 of order 255, and
changes nothing but the response (R103). -/
def Obligations.FindgenAnswersGenerators : Prop :=
  ∃ m : Data, (∀ s : State, exec .findgen s = .next (s.present (.ok m))) ∧
    ∀ g : Element, m.getLsbD g.toNat = true ↔ 2 ≤ g.toNat ∧ ord g = some 255

/-- The result of `FINDGEN` is the constant of R106 (which the spec marks as derived), with 128 bits set. -/
def Obligations.FindgenConstant : Prop :=
  (∀ s : State, exec .findgen s = .next (s.present (.ok
    0xE9734EEC74C1C313C79436F12B69C5D24EC363308FD4DBE2D003158ED79E4A68#256))) ∧
  (Finset.univ.filter fun g : Element => ord g = some 255).card = 128

/-- The orders that occur and how often (R107, which the spec marks as derived). -/
def Obligations.OrdersThatOccur : Prop :=
  ∀ k n : Nat, (k, n) ∈ [(1, 1), (3, 2), (5, 4), (15, 8), (17, 16), (51, 32), (85, 64), (255, 128)] →
    255 % k = 0 ∧ (Finset.univ.filter fun g : Element => ord g = some k).card = n

/-! Reading the tables. -/

/-- `RDEXP e` in every state (R109), with its encoding: a word with opcode 0x06 runs it when the `b` field is 0 and is
illegal when it is not. Nothing but the response changes. -/
def Obligations.RdexpReadsEntry : Prop :=
  ∀ (e : Element) (s : State),
    runWord (commandWord 0x06#8 e 0x00#8) s = exec (.rdexp e) s ∧
    (∀ b, b ≠ 0x00#8 → runWord (commandWord 0x06#8 e b) s = .next (s.present (.fault .illegal))) ∧
    (s.tv = false → Raises (.rdexp e) s .noTables) ∧
    (s.tv = true → Answers (.rdexp e) s (elementData (s.expAt e.toNat)))

/-- `RDLOG a` in every state (R110), with its encoding: a word with opcode 0x07 runs it when the `b` field is 0 and is
illegal when it is not. Nothing but the response changes. -/
def Obligations.RdlogReadsEntry : Prop :=
  ∀ (a : Element) (s : State),
    runWord (commandWord 0x07#8 a 0x00#8) s = exec (.rdlog a) s ∧
    (∀ b, b ≠ 0x00#8 → runWord (commandWord 0x07#8 a b) s = .next (s.present (.fault .illegal))) ∧
    (s.tv = false → Raises (.rdlog a) s .noTables) ∧
    (s.tv = true → s.tagged a = false → Raises (.rdlog a) s .noLog) ∧
    (s.tv = true → s.tagged a = true → Answers (.rdlog a) s (elementData (s.logAt a)))

/-- What the read commands tell the host (R112, which the spec marks as derived). -/
def Obligations.ReadsRevealTheBuild : Prop :=
  ∀ (g : Element) (u : State), u.BuiltBy g →
    Answers (.rdexp 0x01#8) u (elementData g) ∧
    Answers (.rdexp 0xFF#8) u (elementData (if g = 0x00#8 then 0x00#8 else 0x01#8)) ∧
    Raises (.rdlog 0x00#8) u .noLog ∧
    (∀ v, (∃ d, Answers (.rdlog v) u d) ↔ v ≠ 0x00#8 ∧ ∃ i, 1 ≤ i ∧ i ≤ 255 ∧ u.expAt i = v) ∧
    ((∀ v, v ≠ 0x00#8 → ∃ d, Answers (.rdlog v) u d) ↔ IsGenerator g)

/-- The round trips of `RDEXP` and `RDLOG` on the tables of a true generator (R113, which the spec marks as derived). -/
def Obligations.ReadRoundTrips : Prop :=
  ∀ (g : Element) (u : State), IsGenerator g → u.BuiltBy g →
    (∀ i : Element, ∃ v : Element, Answers (.rdexp i) u (elementData v) ∧
      Answers (.rdlog v) u (elementData (if i = 0xFF#8 then 0x00#8 else i))) ∧
    ∀ v : Element, v ≠ 0x00#8 → ∃ e : Element, Answers (.rdlog v) u (elementData e) ∧
      Answers (.rdexp e) u (elementData v)

/-! Faults. -/

/-- The status codes: every response has one of the four, no value is reserved, and a fault's data is 0 (R115, R59). -/
def Obligations.StatusCodes : Prop :=
  (∀ r : Response, (r.status = 0#2 ↔ ∃ d, r = .ok d) ∧ (r.status = 1#2 ↔ r = .fault .illegal) ∧
    (r.status = 2#2 ↔ r = .fault .noTables) ∧ (r.status = 3#2 ↔ r = .fault .noLog) ∧
    (r.status ≠ 0#2 → r.data = 0#256)) ∧
  ∀ c : StatusCode, ∃ r : Response, r.status = c

/-- `E_NOTABLES` (R117): raised exactly by `MULT`, `INV`, `RDEXP` and `RDLOG` when `TV` = 0, with status 2 and data 0
and no other change. -/
def Obligations.NoTablesExactly : Prop :=
  ∀ (i : Instr) (s : State),
    (Raises i s .noTables ↔ s.tv = false ∧ usesTables i = true) ∧
    (∀ t, exec i s = .next t → t.rspStatus = some 2#2 → Raises i s .noTables ∧ t.rspData = some 0#256)

/-- `E_NOLOG` (R118): raised in exactly the cases the rule lists, and on the tables of a true generator only by
`RDLOG 0x00`; status 3, data 0, no other change. -/
def Obligations.NoLogExactly : Prop :=
  ∀ (g : Element) (u : State), u.BuiltBy g → ∀ i : Instr,
    (Raises i u .noLog ↔
      i = .rdlog 0x00#8 ∨
      ∃ v, u.Gap v ∧ (i = .rdlog v ∨ i = .inv v ∨ ∃ w, w ≠ 0x00#8 ∧ (i = .mult v w ∨ i = .mult w v))) ∧
    (IsGenerator g → (Raises i u .noLog ↔ i = .rdlog 0x00#8)) ∧
    ∀ t, exec i u = .next t → t.rspStatus = some 3#2 → Raises i u .noLog ∧ t.rspData = some 0#256

/-- Fault delivery (R121): a word whose response is not `OK` changes nothing but the response port, and its data is 0;
`BUILD`, the only command that writes, faults at decoding only. -/
def Obligations.FaultsChangeNothing : Prop :=
  (∀ (w : CmdWord) (s t : State) (r : Response),
    runWord w s = .next t → t.pending = some r → r.status ≠ 0#2 →
      t = { s with port := .responding r } ∧ t.SameTables s ∧ r.data = 0#256) ∧
  ∀ (g : Element) (s t : State), exec (.build g) s = .next t → t.rspStatus = some 0#2

/-- The priority of the tests (R122): decoding, `TV`, the zero shortcut, the tags; a command that passes them is `OK`. -/
def Obligations.FaultPriority : Prop :=
  ∀ (w : CmdWord) (s : State),
    (legalWord w = false → runWord w s = .next (s.present (.fault .illegal))) ∧
    ∀ i, decode w = .ok i →
      (usesTables i = true → s.tv = false → runWord w s = .next (s.present (.fault .noTables))) ∧
      (s.tv = true → zeroShortcut i = true → runWord w s = .next (s.present (.ok 0#256))) ∧
      (s.tv = true → zeroShortcut i = false → missingLog s i = true →
        runWord w s = .next (s.present (.fault .noLog))) ∧
      ((usesTables i = true → s.tv = true ∧ (zeroShortcut i = true ∨ missingLog s i = false)) →
        ∃ t d, runWord w s = .next t ∧ t.pending = some (.ok d))

/-- A fault leaves no trace (R124, R125): the word that faulted, issued again, faults the same, and any other word
answers as it would have before. -/
def Obligations.FaultsLeaveNoTrace : Prop :=
  ∀ (w x : CmdWord) (s t : State) (f : CoreFault),
    runWord w s = .next t → t.pending = some (.fault f) →
    runWord w t = .next t ∧
    ∃ u u', runWord x s = .next u ∧ runWord x t = .next u' ∧ u = u'

/-- A host that builds from true generators only, and never asks for the logarithm of 0, sees no fault in a whole run
(R117, R118, R137, R138): the words are legal, the first builds, every later `BUILD` is of a true generator. The script, two steps a word and the
record of answers are the model's (log entries 1, 2 and 11). -/
def Obligations.GeneratorRunIsSafe : Prop :=
  ∀ (g : Element) (ws : List CmdWord), IsGenerator g →
    (∀ w ∈ ws, ∃ i, decode w = .ok i ∧ i ≠ .rdlog 0x00#8 ∧ ∀ h, i = .build h → IsGenerator h) →
    SafeRun (2 * (ws.length + 1)) (State.reset.withScript (hostScript (encode (.build g) :: ws)))

/-! The state over all commands and steps. -/

/-- No command but `BUILD` writes any state (R26, which the spec marks as derived): whatever it answers, everything but
the response port is as before. -/
def Obligations.OnlyBuildWrites : Prop :=
  ∀ (i : Instr) (s t : State), exec i s = .next t → (∀ g, i ≠ .build g) →
    ∃ r, t = { s with port := .responding r }

/-- What reset leaves (R32, R117): no table pair, no tag, no command in flight, no response pending; the four table
commands fault with `E_NOTABLES`, and `MULP`, `BUILD` and `FINDGEN` work. That `cmd_ready` = 1 at `State.reset` is the
MODEL's reading of R134 (log entry 6): `State.reset` is the moment after the first edge with `rst` = 0. -/
def Obligations.ResetState : Prop :=
  State.reset.tv = false ∧ (∀ v, State.reset.tagged v = false) ∧ State.reset.pending = none ∧
    State.reset.cmdReady = true ∧
    (∀ i, usesTables i = true → Raises i State.reset .noTables) ∧
    ∀ i, usesTables i = false → ∃ t d, exec i State.reset = .next t ∧ t.pending = some (.ok d)

/-- An edge with `rst` = 1 takes the reset state from every state, a command in flight abandoned with its response never
delivered, for any positive number of such edges with any other pins at each; the first edge with `rst` = 0 leaves the
core ready (R134, R136). That this edge accepts no word is the MODEL's reading of R134 and R49 (log entry 6); that the
host's records start anew is the model's choice (log entry 11). -/
def Obligations.ResetEdges : Prop :=
  ∀ (s : State) (rs : List Pins) (q : Pins) (ps : List Pins),
    rs ≠ [] → (∀ p ∈ rs, p.rst = true) → q.rst = false → s.script = rs ++ q :: ps →
    (∃ t, Host.Core.run Sys2Proof.core rs.length s = .next t ∧ t.tv = false ∧ (∀ v, t.tagged v = false) ∧
      t.pending = none ∧ t.cmdReady = false ∧ t.received = [] ∧ t.accepted = []) ∧
    ∃ t, Host.Core.run Sys2Proof.core (rs.length + 1) s = .next t ∧ t.tv = false ∧ (∀ v, t.tagged v = false) ∧
      t.pending = none ∧ t.cmdReady = true ∧ t.received = [] ∧ t.accepted = [] ∧ t.offered = q.cmd ∧ t.script = ps

/-- Reset is the only way back to `TV` = 0, and no command discards the pair without building another (R135). -/
def Obligations.OnlyResetDropsTables : Prop :=
  (∀ s t : State, s.tv = true → step s = .next t → t.tv = false → ∃ p ps, s.script = p :: ps ∧ p.rst = true) ∧
  ∀ (i : Instr) (s t : State), s.tv = true → exec i s = .next t →
    t.tv = true ∧ (t.SameTables s ∨ ∃ g, i = .build g)

/-- The invariant of R24 at reset. -/
def Obligations.TableInvariantAtReset : Prop := State.reset.TableInvariant

/-- Every step keeps the invariant of R24 (which the spec marks as derived): `LOGV[0]` = 0, and a pair that exists is
that of some operand. -/
def Obligations.TableInvariantKept : Prop :=
  ∀ s t : State, s.TableInvariant → step s = .next t → t.TableInvariant

/-- `TV` = 1 means that a `BUILD` has completed and its pair is in the tables (R23): true at reset and kept by every
step. -/
def Obligations.TablesComeFromBuild : Prop :=
  (State.reset.tv = true → ∃ g, State.reset.BuiltBy g) ∧
  ∀ s t : State, (s.tv = true → ∃ g, s.BuiltBy g) → step s = .next t → t.tv = true → ∃ g, t.BuiltBy g

/-- Both table memories are in canonical form at reset (the model's representation, log entry 10). -/
def Obligations.MemoryInvariantAtReset : Prop := State.reset.MemoryInvariant

/-- Every step keeps both table memories in canonical form, and canonical memories that read alike are equal (the
model's representation, log entry 10). -/
def Obligations.MemoryInvariantKept : Prop :=
  (∀ s t : State, s.MemoryInvariant → step s = .next t → t.MemoryInvariant) ∧
  ∀ s t : State, s.MemoryInvariant → t.MemoryInvariant → (∀ i, s.expAt i = t.expAt i) → s.exp = t.exp

/-- The unspecified bytes are unobservable (R32, R79): two states that agree on what can be read answer every word
alike, and agree afterwards. -/
def Obligations.UnspecifiedBytesUnobservable : Prop :=
  ∀ (w : CmdWord) (s t : State), s.TablesAgree t →
    ∃ s' t', runWord w s = .next s' ∧ runWord w t = .next t' ∧ s'.pending = t'.pending ∧ s'.TablesAgree t'

/-- The transcript invariant at reset. -/
def Obligations.TranscriptAtReset : Prop := State.reset.TranscriptInvariant

/-- Every step of every state keeps the transcript invariant: the responses given since the last reset are, in order,
those of the commands accepted since then applied one by one from reset, each exactly one, and the tables are theirs
(R43, R51). -/
def Obligations.TranscriptKept : Prop :=
  ∀ s t : State, s.TranscriptInvariant → step s = .next t → t.TranscriptInvariant

/-- A host that keeps its duties gets a response to every word, legal or not, in order, and the core is ready again
(R51, R147, R148). Two steps a word, one that accepts and runs it and one that delivers, is the model's (log entries 1 and
2), and so are the records of words and responses (log entry 11). -/
def Obligations.EveryCommandAnswered : Prop :=
  ∀ ws : List CmdWord, ∃ t,
    Host.Core.run Sys2Proof.core (2 * ws.length) (State.reset.withScript (hostScript ws)) = .next t ∧
    t.accepted = ws ∧ t.received = (replay State.reset ws).2 ∧ t.received.length = ws.length ∧
    t.cmdReady = true ∧ t.script = []

/-- A host that never takes its response stalls the core for ever (R144): the response is held, nothing is accepted, and
the tables do not change. -/
def Obligations.DeafHostStalls : Prop :=
  ∀ (n : Nat) (s : State) (r : Response) (c : Option CmdWord) (ps : List Pins),
    s.port = .responding r → (s.offered = none ∨ s.offered = c) →
    s.script = List.replicate n (deafEdge c) ++ ps →
    ∃ t, Host.Core.run Sys2Proof.core n s = .next t ∧ t.port = .responding r ∧ t.accepted = s.accepted ∧
      t.received = s.received ∧ t.SameTables s ∧ t.script = ps
end

