-- ==== Sys2Proof/Laws/Memory.lean ====
section
/-! SUPPORT. The laws of the table memories: reading after writing, and the canonical form. -/

namespace Sys2Proof.Machine

@[simp] theorem Memory.read_nil (a : Nat) : Memory.read [] a = unlistedByte := rfl

theorem Memory.read_cons (b : Nat) (w : BitVec 8) (m : Memory) (a : Nat) :
    Memory.read ((b, w) :: m) a = if b = a then w else Memory.read m a := rfl

theorem Memory.read_erase_same (a : Nat) (m : Memory) : Memory.read (Memory.erase a m) a = unlistedByte := by
  induction m with
  | nil => rfl
  | cons c m ih =>
    obtain ⟨b, w⟩ := c
    by_cases h : b = a <;> simp [Memory.erase, Memory.read, h, ih]

theorem Memory.read_erase_other {a c : Nat} (hc : c ≠ a) (m : Memory) :
    Memory.read (Memory.erase a m) c = Memory.read m c := by
  induction m with
  | nil => rfl
  | cons d m ih =>
    obtain ⟨b, w⟩ := d
    by_cases h : b = a
    · subst h; simp [Memory.erase, Memory.read, ih, Ne.symm hc]
    · simp [Memory.erase, Memory.read, h, ih]

theorem Memory.read_put_same (a : Nat) (v : BitVec 8) (m : Memory) : Memory.read (Memory.put a v m) a = v := by
  induction m with
  | nil => simp [Memory.put, Memory.read]
  | cons d m ih =>
    obtain ⟨b, w⟩ := d
    unfold Memory.put
    split
    · simp [Memory.read]
    · split
      · simp [Memory.read]
      · rename_i h; simp [Memory.read, Ne.symm h, ih]

theorem Memory.read_put_other {a c : Nat} (hc : c ≠ a) (v : BitVec 8) (m : Memory) :
    Memory.read (Memory.put a v m) c = Memory.read m c := by
  induction m with
  | nil => simp [Memory.put, Memory.read, Ne.symm hc]
  | cons d m ih =>
    obtain ⟨b, w⟩ := d
    unfold Memory.put
    split
    · rw [Memory.read_cons, if_neg (Ne.symm hc)]
    · split
      · rename_i h; subst h; simp [Memory.read, Ne.symm hc]
      · simp [Memory.read, ih]

/-- All that one read can see of one write, in any memory. -/
theorem Memory.read_write (m : Memory) (a : Nat) (v : BitVec 8) (c : Nat) :
    Memory.read (Memory.write m a v) c = if c = a then v else Memory.read m c := by
  unfold Memory.write
  split
  · rename_i hv
    split
    · rename_i h; rw [h, hv, Memory.read_erase_same]
    · rename_i h; exact Memory.read_erase_other h m
  · split
    · rename_i h; rw [h, Memory.read_put_same]
    · rename_i h; exact Memory.read_put_other h v m

theorem Memory.wfFrom_mono {lo lo' : Nat} (h : lo' ≤ lo) {m : Memory} (hm : Memory.wfFrom lo m = true) :
    Memory.wfFrom lo' m = true := by
  cases m with
  | nil => rfl
  | cons c m =>
    obtain ⟨a, v⟩ := c
    simp only [Memory.wfFrom, Bool.and_eq_true, decide_eq_true_eq] at hm ⊢
    exact ⟨⟨⟨h.trans hm.1.1.1, hm.1.1.2⟩, hm.1.2⟩, hm.2⟩

theorem Memory.wfFrom_erase {lo : Nat} (a : Nat) {m : Memory} (hm : Memory.wfFrom lo m = true) :
    Memory.wfFrom lo (Memory.erase a m) = true := by
  induction m generalizing lo with
  | nil => rfl
  | cons c m ih =>
    obtain ⟨b, w⟩ := c
    simp only [Memory.wfFrom, Bool.and_eq_true, decide_eq_true_eq] at hm
    unfold Memory.erase
    split
    · exact ih (Memory.wfFrom_mono (by omega) hm.2)
    · simp only [Memory.wfFrom, Bool.and_eq_true, decide_eq_true_eq]
      exact ⟨hm.1, ih hm.2⟩

theorem Memory.wfFrom_put {lo a : Nat} {v : BitVec 8} (hlo : lo ≤ a) (ha : a < 256) (hv : v ≠ unlistedByte)
    {m : Memory} (hm : Memory.wfFrom lo m = true) : Memory.wfFrom lo (Memory.put a v m) = true := by
  induction m generalizing lo with
  | nil => simp [Memory.put, Memory.wfFrom, hlo, ha, hv]
  | cons c m ih =>
    obtain ⟨b, w⟩ := c
    simp only [Memory.wfFrom, Bool.and_eq_true, decide_eq_true_eq] at hm
    unfold Memory.put
    split
    · simp only [Memory.wfFrom, Bool.and_eq_true, decide_eq_true_eq]
      exact ⟨⟨⟨hlo, ha⟩, hv⟩, ⟨⟨by omega, hm.1.1.2⟩, hm.1.2⟩, hm.2⟩
    · split
      · rename_i h
        simp only [Memory.wfFrom, Bool.and_eq_true, decide_eq_true_eq]
        exact ⟨⟨⟨hlo, ha⟩, hv⟩, h ▸ hm.2⟩
      · simp only [Memory.wfFrom, Bool.and_eq_true, decide_eq_true_eq]
        exact ⟨hm.1, ih (by omega) hm.2⟩

/-- A write to an index of the space keeps the canonical form. -/
theorem Memory.wf_write {m : Memory} {a : Nat} {v : BitVec 8} (ha : a < 256) (hm : Memory.wf m = true) :
    Memory.wf (Memory.write m a v) = true := by
  unfold Memory.write
  split
  · exact Memory.wfFrom_erase a hm
  · rename_i hv; exact Memory.wfFrom_put (Nat.zero_le a) ha hv hm

/-- A filled memory is in canonical form. -/
theorem Memory.wf_fill (f : Nat → BitVec 8) : ∀ n, n ≤ 256 → Memory.wf (Memory.fill f n) = true
  | 0, _ => rfl
  | n + 1, h => Memory.wf_write (by omega) (Memory.wf_fill f n (by omega))

/-- A filled memory reads as the function below its length and as unlisted above it. -/
theorem Memory.read_fill (f : Nat → BitVec 8) (n c : Nat) :
    Memory.read (Memory.fill f n) c = if c < n then f c else unlistedByte := by
  induction n with
  | zero => rfl
  | succ n ih =>
    rw [Memory.fill, Memory.read_write, ih]
    by_cases h : c = n
    · subst h; simp
    · simp only [if_neg h]
      split <;> split <;> first | rfl | omega

theorem Memory.read_below {lo a : Nat} {m : Memory} (h : a < lo) (hm : Memory.wfFrom lo m = true) :
    Memory.read m a = unlistedByte := by
  induction m generalizing lo with
  | nil => rfl
  | cons c m ih =>
    obtain ⟨b, w⟩ := c
    simp only [Memory.wfFrom, Bool.and_eq_true, decide_eq_true_eq] at hm
    rw [Memory.read_cons, if_neg (by omega)]
    exact ih (by omega) hm.2

theorem Memory.ext_from {lo : Nat} {m m' : Memory} (hm : Memory.wfFrom lo m = true)
    (hm' : Memory.wfFrom lo m' = true) (h : ∀ a, Memory.read m a = Memory.read m' a) : m = m' := by
  induction m generalizing lo m' with
  | nil =>
    cases m' with
    | nil => rfl
    | cons c m' =>
      obtain ⟨b, w⟩ := c
      simp only [Memory.wfFrom, Bool.and_eq_true, decide_eq_true_eq] at hm'
      have := h b
      rw [Memory.read_cons, if_pos rfl] at this
      exact absurd this.symm hm'.1.2
  | cons c m ih =>
    obtain ⟨a, v⟩ := c
    simp only [Memory.wfFrom, Bool.and_eq_true, decide_eq_true_eq] at hm
    cases m' with
    | nil =>
      have := h a
      rw [Memory.read_cons, if_pos rfl] at this
      exact absurd this hm.1.2
    | cons c m' =>
      obtain ⟨b, w⟩ := c
      simp only [Memory.wfFrom, Bool.and_eq_true, decide_eq_true_eq] at hm'
      have hab : a = b := by
        by_contra hne
        rcases Nat.lt_or_gt_of_ne hne with hlt | hgt
        · have := h a
          rw [Memory.read_cons, if_pos rfl, Memory.read_cons, if_neg (by omega),
            Memory.read_below (by omega) hm'.2] at this
          exact hm.1.2 this
        · have := h b
          rw [Memory.read_cons, if_neg (by omega), Memory.read_below (by omega) hm.2, Memory.read_cons,
            if_pos rfl] at this
          exact hm'.1.2 this.symm
      subst hab
      have hv := h a
      rw [Memory.read_cons, if_pos rfl, Memory.read_cons, if_pos rfl] at hv
      subst hv
      rw [ih hm.2 hm'.2 fun x => ?_]
      by_cases hx : a = x
      · rw [Memory.read_below (by omega) hm.2, Memory.read_below (by omega) hm'.2]
      · have := h x
        rwa [Memory.read_cons, if_neg hx, Memory.read_cons, if_neg hx] at this

/-- Canonical memories that read the same are the same data. -/
theorem Memory.eq_of_read {m m' : Memory} (hm : Memory.wf m = true) (hm' : Memory.wf m' = true)
    (h : ∀ a, Memory.read m a = Memory.read m' a) : m = m' := Memory.ext_from hm hm' h

end Sys2Proof.Machine
end

