-- ==== Sys2Proof/Laws/State.lean ====
section
/-! SUPPORT. One lemma per field per update of State, true by rfl, so that no proof unfolds a record update. -/

namespace Sys2Proof.Machine

@[simp] theorem State.setTv_tv (s : State) (t : Bool) : (s.setTv t).tv = t := rfl
@[simp] theorem State.setTv_exp (s : State) (t : Bool) : (s.setTv t).exp = s.exp := rfl
@[simp] theorem State.setTv_log (s : State) (t : Bool) : (s.setTv t).log = s.log := rfl
@[simp] theorem State.setTv_logv (s : State) (t : Bool) : (s.setTv t).logv = s.logv := rfl
@[simp] theorem State.setTv_port (s : State) (t : Bool) : (s.setTv t).port = s.port := rfl
@[simp] theorem State.setTv_script (s : State) (t : Bool) : (s.setTv t).script = s.script := rfl
@[simp] theorem State.setTv_offered (s : State) (t : Bool) : (s.setTv t).offered = s.offered := rfl
@[simp] theorem State.setTv_accepted (s : State) (t : Bool) : (s.setTv t).accepted = s.accepted := rfl
@[simp] theorem State.setTv_received (s : State) (t : Bool) : (s.setTv t).received = s.received := rfl
@[simp] theorem State.setTv_resets (s : State) (t : Bool) : (s.setTv t).resets = s.resets := rfl

@[simp] theorem State.setExp_tv (s : State) (i : Nat) (v : Element) : (s.setExp i v).tv = s.tv := rfl
@[simp] theorem State.setExp_exp (s : State) (i : Nat) (v : Element) : (s.setExp i v).exp = Memory.write s.exp i v := rfl
@[simp] theorem State.setExp_log (s : State) (i : Nat) (v : Element) : (s.setExp i v).log = s.log := rfl
@[simp] theorem State.setExp_logv (s : State) (i : Nat) (v : Element) : (s.setExp i v).logv = s.logv := rfl
@[simp] theorem State.setExp_port (s : State) (i : Nat) (v : Element) : (s.setExp i v).port = s.port := rfl
@[simp] theorem State.setExp_script (s : State) (i : Nat) (v : Element) : (s.setExp i v).script = s.script := rfl
@[simp] theorem State.setExp_offered (s : State) (i : Nat) (v : Element) : (s.setExp i v).offered = s.offered := rfl
@[simp] theorem State.setExp_accepted (s : State) (i : Nat) (v : Element) : (s.setExp i v).accepted = s.accepted := rfl
@[simp] theorem State.setExp_received (s : State) (i : Nat) (v : Element) : (s.setExp i v).received = s.received := rfl
@[simp] theorem State.setExp_resets (s : State) (i : Nat) (v : Element) : (s.setExp i v).resets = s.resets := rfl

@[simp] theorem State.setLog_tv (s : State) (v : Element) (e : BitVec 8) : (s.setLog v e).tv = s.tv := rfl
@[simp] theorem State.setLog_exp (s : State) (v : Element) (e : BitVec 8) : (s.setLog v e).exp = s.exp := rfl
@[simp] theorem State.setLog_log (s : State) (v : Element) (e : BitVec 8) : (s.setLog v e).log = Memory.write s.log v.toNat e := rfl
@[simp] theorem State.setLog_logv (s : State) (v : Element) (e : BitVec 8) : (s.setLog v e).logv = s.logv := rfl
@[simp] theorem State.setLog_port (s : State) (v : Element) (e : BitVec 8) : (s.setLog v e).port = s.port := rfl
@[simp] theorem State.setLog_script (s : State) (v : Element) (e : BitVec 8) : (s.setLog v e).script = s.script := rfl
@[simp] theorem State.setLog_offered (s : State) (v : Element) (e : BitVec 8) : (s.setLog v e).offered = s.offered := rfl
@[simp] theorem State.setLog_accepted (s : State) (v : Element) (e : BitVec 8) : (s.setLog v e).accepted = s.accepted := rfl
@[simp] theorem State.setLog_received (s : State) (v : Element) (e : BitVec 8) : (s.setLog v e).received = s.received := rfl
@[simp] theorem State.setLog_resets (s : State) (v : Element) (e : BitVec 8) : (s.setLog v e).resets = s.resets := rfl

@[simp] theorem State.setTag_tv (s : State) (v : Element) : (s.setTag v).tv = s.tv := rfl
@[simp] theorem State.setTag_exp (s : State) (v : Element) : (s.setTag v).exp = s.exp := rfl
@[simp] theorem State.setTag_log (s : State) (v : Element) : (s.setTag v).log = s.log := rfl
@[simp] theorem State.setTag_logv (s : State) (v : Element) : (s.setTag v).logv = s.logv ||| BitVec.twoPow 256 v.toNat := rfl
@[simp] theorem State.setTag_port (s : State) (v : Element) : (s.setTag v).port = s.port := rfl
@[simp] theorem State.setTag_script (s : State) (v : Element) : (s.setTag v).script = s.script := rfl
@[simp] theorem State.setTag_offered (s : State) (v : Element) : (s.setTag v).offered = s.offered := rfl
@[simp] theorem State.setTag_accepted (s : State) (v : Element) : (s.setTag v).accepted = s.accepted := rfl
@[simp] theorem State.setTag_received (s : State) (v : Element) : (s.setTag v).received = s.received := rfl
@[simp] theorem State.setTag_resets (s : State) (v : Element) : (s.setTag v).resets = s.resets := rfl

@[simp] theorem State.clearTags_tv (s : State) : s.clearTags.tv = s.tv := rfl
@[simp] theorem State.clearTags_exp (s : State) : s.clearTags.exp = s.exp := rfl
@[simp] theorem State.clearTags_log (s : State) : s.clearTags.log = s.log := rfl
@[simp] theorem State.clearTags_logv (s : State) : s.clearTags.logv = 0#256 := rfl
@[simp] theorem State.clearTags_port (s : State) : s.clearTags.port = s.port := rfl
@[simp] theorem State.clearTags_script (s : State) : s.clearTags.script = s.script := rfl
@[simp] theorem State.clearTags_offered (s : State) : s.clearTags.offered = s.offered := rfl
@[simp] theorem State.clearTags_accepted (s : State) : s.clearTags.accepted = s.accepted := rfl
@[simp] theorem State.clearTags_received (s : State) : s.clearTags.received = s.received := rfl
@[simp] theorem State.clearTags_resets (s : State) : s.clearTags.resets = s.resets := rfl

@[simp] theorem State.present_tv (s : State) (r : Response) : (s.present r).tv = s.tv := rfl
@[simp] theorem State.present_exp (s : State) (r : Response) : (s.present r).exp = s.exp := rfl
@[simp] theorem State.present_log (s : State) (r : Response) : (s.present r).log = s.log := rfl
@[simp] theorem State.present_logv (s : State) (r : Response) : (s.present r).logv = s.logv := rfl
@[simp] theorem State.present_port (s : State) (r : Response) : (s.present r).port = .responding r := rfl
@[simp] theorem State.present_script (s : State) (r : Response) : (s.present r).script = s.script := rfl
@[simp] theorem State.present_offered (s : State) (r : Response) : (s.present r).offered = s.offered := rfl
@[simp] theorem State.present_accepted (s : State) (r : Response) : (s.present r).accepted = s.accepted := rfl
@[simp] theorem State.present_received (s : State) (r : Response) : (s.present r).received = s.received := rfl
@[simp] theorem State.present_resets (s : State) (r : Response) : (s.present r).resets = s.resets := rfl

@[simp] theorem State.withScript_tv (s : State) (ps : List Pins) : (s.withScript ps).tv = s.tv := rfl
@[simp] theorem State.withScript_exp (s : State) (ps : List Pins) : (s.withScript ps).exp = s.exp := rfl
@[simp] theorem State.withScript_log (s : State) (ps : List Pins) : (s.withScript ps).log = s.log := rfl
@[simp] theorem State.withScript_logv (s : State) (ps : List Pins) : (s.withScript ps).logv = s.logv := rfl
@[simp] theorem State.withScript_port (s : State) (ps : List Pins) : (s.withScript ps).port = s.port := rfl
@[simp] theorem State.withScript_script (s : State) (ps : List Pins) : (s.withScript ps).script = ps := rfl
@[simp] theorem State.withScript_offered (s : State) (ps : List Pins) : (s.withScript ps).offered = s.offered := rfl
@[simp] theorem State.withScript_accepted (s : State) (ps : List Pins) : (s.withScript ps).accepted = s.accepted := rfl
@[simp] theorem State.withScript_received (s : State) (ps : List Pins) : (s.withScript ps).received = s.received := rfl
@[simp] theorem State.withScript_resets (s : State) (ps : List Pins) : (s.withScript ps).resets = s.resets := rfl

@[simp] theorem State.offer_tv (s : State) (c : Option CmdWord) : (s.offer c).tv = s.tv := rfl
@[simp] theorem State.offer_exp (s : State) (c : Option CmdWord) : (s.offer c).exp = s.exp := rfl
@[simp] theorem State.offer_log (s : State) (c : Option CmdWord) : (s.offer c).log = s.log := rfl
@[simp] theorem State.offer_logv (s : State) (c : Option CmdWord) : (s.offer c).logv = s.logv := rfl
@[simp] theorem State.offer_port (s : State) (c : Option CmdWord) : (s.offer c).port = s.port := rfl
@[simp] theorem State.offer_script (s : State) (c : Option CmdWord) : (s.offer c).script = s.script := rfl
@[simp] theorem State.offer_offered (s : State) (c : Option CmdWord) : (s.offer c).offered = c := rfl
@[simp] theorem State.offer_accepted (s : State) (c : Option CmdWord) : (s.offer c).accepted = s.accepted := rfl
@[simp] theorem State.offer_received (s : State) (c : Option CmdWord) : (s.offer c).received = s.received := rfl
@[simp] theorem State.offer_resets (s : State) (c : Option CmdWord) : (s.offer c).resets = s.resets := rfl

@[simp] theorem State.accept_tv (s : State) (w : CmdWord) : (s.accept w).tv = s.tv := rfl
@[simp] theorem State.accept_exp (s : State) (w : CmdWord) : (s.accept w).exp = s.exp := rfl
@[simp] theorem State.accept_log (s : State) (w : CmdWord) : (s.accept w).log = s.log := rfl
@[simp] theorem State.accept_logv (s : State) (w : CmdWord) : (s.accept w).logv = s.logv := rfl
@[simp] theorem State.accept_port (s : State) (w : CmdWord) : (s.accept w).port = s.port := rfl
@[simp] theorem State.accept_script (s : State) (w : CmdWord) : (s.accept w).script = s.script := rfl
@[simp] theorem State.accept_offered (s : State) (w : CmdWord) : (s.accept w).offered = none := rfl
@[simp] theorem State.accept_accepted (s : State) (w : CmdWord) : (s.accept w).accepted = s.accepted ++ [w] := rfl
@[simp] theorem State.accept_received (s : State) (w : CmdWord) : (s.accept w).received = s.received := rfl
@[simp] theorem State.accept_resets (s : State) (w : CmdWord) : (s.accept w).resets = s.resets := rfl

@[simp] theorem State.deliver_tv (s : State) (r : Response) : (s.deliver r).tv = s.tv := rfl
@[simp] theorem State.deliver_exp (s : State) (r : Response) : (s.deliver r).exp = s.exp := rfl
@[simp] theorem State.deliver_log (s : State) (r : Response) : (s.deliver r).log = s.log := rfl
@[simp] theorem State.deliver_logv (s : State) (r : Response) : (s.deliver r).logv = s.logv := rfl
@[simp] theorem State.deliver_port (s : State) (r : Response) : (s.deliver r).port = .ready := rfl
@[simp] theorem State.deliver_script (s : State) (r : Response) : (s.deliver r).script = s.script := rfl
@[simp] theorem State.deliver_offered (s : State) (r : Response) : (s.deliver r).offered = s.offered := rfl
@[simp] theorem State.deliver_accepted (s : State) (r : Response) : (s.deliver r).accepted = s.accepted := rfl
@[simp] theorem State.deliver_received (s : State) (r : Response) : (s.deliver r).received = s.received ++ [r] := rfl
@[simp] theorem State.deliver_resets (s : State) (r : Response) : (s.deliver r).resets = s.resets := rfl

@[simp] theorem State.leaveReset_tv (s : State) : s.leaveReset.tv = s.tv := rfl
@[simp] theorem State.leaveReset_exp (s : State) : s.leaveReset.exp = s.exp := rfl
@[simp] theorem State.leaveReset_log (s : State) : s.leaveReset.log = s.log := rfl
@[simp] theorem State.leaveReset_logv (s : State) : s.leaveReset.logv = s.logv := rfl
@[simp] theorem State.leaveReset_port (s : State) : s.leaveReset.port = .ready := rfl
@[simp] theorem State.leaveReset_script (s : State) : s.leaveReset.script = s.script := rfl
@[simp] theorem State.leaveReset_offered (s : State) : s.leaveReset.offered = s.offered := rfl
@[simp] theorem State.leaveReset_accepted (s : State) : s.leaveReset.accepted = s.accepted := rfl
@[simp] theorem State.leaveReset_received (s : State) : s.leaveReset.received = s.received := rfl
@[simp] theorem State.leaveReset_resets (s : State) : s.leaveReset.resets = s.resets := rfl

@[simp] theorem State.takeReset_tv (s : State) : s.takeReset.tv = false := rfl
@[simp] theorem State.takeReset_exp (s : State) : s.takeReset.exp = Memory.fill (Config.unspecifiedExp s.resets) Config.tableEntries := rfl
@[simp] theorem State.takeReset_log (s : State) : s.takeReset.log = Memory.fill (Config.unspecifiedLog s.resets) Config.tableEntries := rfl
@[simp] theorem State.takeReset_logv (s : State) : s.takeReset.logv = 0#256 := rfl
@[simp] theorem State.takeReset_port (s : State) : s.takeReset.port = .inReset := rfl
@[simp] theorem State.takeReset_script (s : State) : s.takeReset.script = s.script := rfl
@[simp] theorem State.takeReset_offered (s : State) : s.takeReset.offered = none := rfl
@[simp] theorem State.takeReset_accepted (s : State) : s.takeReset.accepted = [] := rfl
@[simp] theorem State.takeReset_received (s : State) : s.takeReset.received = [] := rfl
@[simp] theorem State.takeReset_resets (s : State) : s.takeReset.resets = s.resets + 1 := rfl

/-! What the accessors see of an update that does not touch what they read. -/

@[simp] theorem State.setTv_expAt (s : State) (t : Bool) (i : Nat) : (s.setTv t).expAt i = s.expAt i := rfl
@[simp] theorem State.setTv_logAt (s : State) (t : Bool) (v : Element) : (s.setTv t).logAt v = s.logAt v := rfl
@[simp] theorem State.setTv_tagged (s : State) (t : Bool) (v : Element) : (s.setTv t).tagged v = s.tagged v := rfl
@[simp] theorem State.setExp_logAt (s : State) (i : Nat) (u : Element) (v : Element) : (s.setExp i u).logAt v = s.logAt v := rfl
@[simp] theorem State.setExp_tagged (s : State) (i : Nat) (u : Element) (v : Element) : (s.setExp i u).tagged v = s.tagged v := rfl
@[simp] theorem State.setLog_expAt (s : State) (v : Element) (e : BitVec 8) (i : Nat) : (s.setLog v e).expAt i = s.expAt i := rfl
@[simp] theorem State.setLog_tagged (s : State) (u : Element) (e : BitVec 8) (v : Element) : (s.setLog u e).tagged v = s.tagged v := rfl
@[simp] theorem State.setTag_expAt (s : State) (v : Element) (i : Nat) : (s.setTag v).expAt i = s.expAt i := rfl
@[simp] theorem State.setTag_logAt (s : State) (u : Element) (v : Element) : (s.setTag u).logAt v = s.logAt v := rfl
@[simp] theorem State.clearTags_expAt (s : State) (i : Nat) : s.clearTags.expAt i = s.expAt i := rfl
@[simp] theorem State.clearTags_logAt (s : State) (v : Element) : s.clearTags.logAt v = s.logAt v := rfl
@[simp] theorem State.present_expAt (s : State) (r : Response) (i : Nat) : (s.present r).expAt i = s.expAt i := rfl
@[simp] theorem State.present_logAt (s : State) (r : Response) (v : Element) : (s.present r).logAt v = s.logAt v := rfl
@[simp] theorem State.present_tagged (s : State) (r : Response) (v : Element) : (s.present r).tagged v = s.tagged v := rfl
@[simp] theorem State.withScript_expAt (s : State) (ps : List Pins) (i : Nat) : (s.withScript ps).expAt i = s.expAt i := rfl
@[simp] theorem State.withScript_logAt (s : State) (ps : List Pins) (v : Element) : (s.withScript ps).logAt v = s.logAt v := rfl
@[simp] theorem State.withScript_tagged (s : State) (ps : List Pins) (v : Element) : (s.withScript ps).tagged v = s.tagged v := rfl
@[simp] theorem State.offer_expAt (s : State) (c : Option CmdWord) (i : Nat) : (s.offer c).expAt i = s.expAt i := rfl
@[simp] theorem State.offer_logAt (s : State) (c : Option CmdWord) (v : Element) : (s.offer c).logAt v = s.logAt v := rfl
@[simp] theorem State.offer_tagged (s : State) (c : Option CmdWord) (v : Element) : (s.offer c).tagged v = s.tagged v := rfl
@[simp] theorem State.accept_expAt (s : State) (w : CmdWord) (i : Nat) : (s.accept w).expAt i = s.expAt i := rfl
@[simp] theorem State.accept_logAt (s : State) (w : CmdWord) (v : Element) : (s.accept w).logAt v = s.logAt v := rfl
@[simp] theorem State.accept_tagged (s : State) (w : CmdWord) (v : Element) : (s.accept w).tagged v = s.tagged v := rfl
@[simp] theorem State.deliver_expAt (s : State) (r : Response) (i : Nat) : (s.deliver r).expAt i = s.expAt i := rfl
@[simp] theorem State.deliver_logAt (s : State) (r : Response) (v : Element) : (s.deliver r).logAt v = s.logAt v := rfl
@[simp] theorem State.deliver_tagged (s : State) (r : Response) (v : Element) : (s.deliver r).tagged v = s.tagged v := rfl
@[simp] theorem State.leaveReset_expAt (s : State) (i : Nat) : s.leaveReset.expAt i = s.expAt i := rfl
@[simp] theorem State.leaveReset_logAt (s : State) (v : Element) : s.leaveReset.logAt v = s.logAt v := rfl
@[simp] theorem State.leaveReset_tagged (s : State) (v : Element) : s.leaveReset.tagged v = s.tagged v := rfl

@[simp] theorem State.present_pending (s : State) (r : Response) : (s.present r).pending = some r := rfl

end Sys2Proof.Machine
end

