-- ==== Sys2Proof/Laws/Ops.lean ====
section
/-! SUPPORT. One lemma per shared operation that says what it can do: table writes, tags, ending a command, building. -/

namespace Sys2Proof.Machine

theorem State.expAt_setExp (s : State) (i : Nat) (v : Element) (j : Nat) :
    (s.setExp i v).expAt j = if j = i then v else s.expAt j := Memory.read_write _ _ _ _

theorem State.logAt_setLog (s : State) (v : Element) (e : BitVec 8) (u : Element) :
    (s.setLog v e).logAt u = if u = v then e else s.logAt u := by
  unfold State.logAt State.setLog
  rw [Memory.read_write]
  simp only [BitVec.toNat_inj]

theorem State.tagged_setTag (s : State) (v u : Element) :
    (s.setTag v).tagged u = (decide (u = v) || s.tagged u) := by
  have hu := u.isLt
  unfold State.tagged State.setTag
  rw [BitVec.getLsbD_or, BitVec.getLsbD_twoPow, Bool.or_comm]
  congr 1
  by_cases h : u = v
  · subst h; simp; omega
  · have : v.toNat ≠ u.toNat := fun e => h (BitVec.eq_of_toNat_eq e.symm)
    simp [h, this]

@[simp] theorem State.tagged_clearTags (s : State) (v : Element) : s.clearTags.tagged v = false := by
  simp [State.tagged]

/-- All that ending a command with a result does. -/
theorem respond_next {d : Data} {s t : State} (h : respond d s = .next t) : t = s.present (.ok d) := by
  injection h with h; exact h.symm

/-- All that taking a fault does. -/
theorem raise_next {f : CoreFault} {s t : State} (h : raise f s = .next t) : t = s.present (.fault f) := by
  injection h with h; exact h.symm

/-- The start of `BUILD` reads as R77 says: `EXP[0]` is 1 and the rest of `EXP` and all of `LOG` are untouched. -/
theorem buildStart_expAt (s : State) (j : Nat) :
    (buildStart s).expAt j = if j = 0 then 0x01#8 else s.expAt j := by
  unfold buildStart
  rw [State.expAt_setExp]
  rfl

@[simp] theorem buildStart_tagged (s : State) (v : Element) : (buildStart s).tagged v = false := by
  simp [buildStart]

@[simp] theorem buildStart_logAt (s : State) (v : Element) : (buildStart s).logAt v = s.logAt v := rfl

@[simp] theorem buildLogEntry_exp (i : Nat) (v : Element) (s : State) : (buildLogEntry i v s).exp = s.exp := by
  unfold buildLogEntry; split <;> rfl

@[simp] theorem buildLogEntry_expAt (i : Nat) (v : Element) (s : State) (j : Nat) :
    (buildLogEntry i v s).expAt j = s.expAt j := by
  unfold buildLogEntry; split <;> rfl

/-- A log entry sets one tag, and none for element 0 (R81). -/
theorem buildLogEntry_tagged (i : Nat) (v : Element) (s : State) (u : Element) :
    (buildLogEntry i v s).tagged u = ((decide (u = v) && decide (v ≠ 0x00#8)) || s.tagged u) := by
  unfold buildLogEntry
  split
  · rename_i h; simp [h]
  · rename_i h; simp [State.tagged_setTag, h]

/-- A log entry writes one byte, and none for element 0 (R81). -/
theorem buildLogEntry_logAt (i : Nat) (v : Element) (s : State) (u : Element) :
    (buildLogEntry i v s).logAt u = if u = v ∧ v ≠ 0x00#8 then BitVec.ofNat 8 (i % Config.groupOrder) else s.logAt u := by
  unfold buildLogEntry
  split
  · rename_i h; simp [h]
  · rename_i h
    rw [State.setTag_logAt, State.logAt_setLog]
    simp [h]

/-- One iteration's `EXP`: entry `i` is `g` times the entry before it (R77). -/
theorem buildIteration_expAt (g : Element) (i : Nat) (s : State) (j : Nat) :
    (buildIteration g i s).expAt j = if j = i then mulp g (s.expAt (i - 1)) else s.expAt j := by
  unfold buildIteration
  rw [buildLogEntry_expAt, State.expAt_setExp]

/-- What `BUILD` never touches. -/
structure State.SameOutside (s t : State) : Prop where
  port : t.port = s.port
  script : t.script = s.script
  offered : t.offered = s.offered
  accepted : t.accepted = s.accepted
  received : t.received = s.received
  resets : t.resets = s.resets

theorem buildIteration_outside (g : Element) (i : Nat) (s : State) : s.SameOutside (buildIteration g i s) := by
  simp only [buildIteration, buildLogEntry]
  split <;> exact ⟨rfl, rfl, rfl, rfl, rfl, rfl⟩

theorem buildUpTo_outside (g : Element) (s : State) : ∀ n, s.SameOutside (buildUpTo g s n)
  | 0 => ⟨rfl, rfl, rfl, rfl, rfl, rfl⟩
  | n + 1 => by
    have h := buildUpTo_outside g s n
    have k := buildIteration_outside g (n + 1) (buildUpTo g s n)
    exact ⟨k.port.trans h.port, k.script.trans h.script, k.offered.trans h.offered, k.accepted.trans h.accepted,
      k.received.trans h.received, k.resets.trans h.resets⟩

/-- The builder changes nothing but the table pair. -/
theorem buildTables_outside (g : Element) (s : State) : s.SameOutside (buildTables g s) := by
  have h := buildUpTo_outside g s 255
  exact ⟨h.port, h.script, h.offered, h.accepted, h.received, h.resets⟩

/-- The pair `BUILD` leaves is that of its last iteration. -/
theorem buildTables_expAt (g : Element) (s : State) (j : Nat) :
    (buildTables g s).expAt j = (buildUpTo g s 255).expAt j := State.setTv_expAt _ _ _

theorem buildTables_logAt (g : Element) (s : State) (v : Element) :
    (buildTables g s).logAt v = (buildUpTo g s 255).logAt v := State.setTv_logAt _ _ _

theorem buildTables_tagged (g : Element) (s : State) (v : Element) :
    (buildTables g s).tagged v = (buildUpTo g s 255).tagged v := State.setTv_tagged _ _ _

theorem buildLogEntry_log_wf (i : Nat) (v : Element) {s : State} (h : Memory.wf s.log = true) :
    Memory.wf (buildLogEntry i v s).log = true := by
  unfold buildLogEntry
  split
  · exact h
  · rw [State.setTag_log, State.setLog_log]
    exact Memory.wf_write v.isLt h

theorem buildUpTo_exp_wf (g : Element) {s : State} (h : Memory.wf s.exp = true) :
    ∀ n, n ≤ 255 → Memory.wf (buildUpTo g s n).exp = true
  | 0, _ => by
    change Memory.wf (Memory.write s.exp 0 0x01#8) = true
    exact Memory.wf_write (by decide) h
  | n + 1, hn => by
    rw [buildUpTo, buildIteration, buildLogEntry_exp, State.setExp_exp]
    exact Memory.wf_write (by omega) (buildUpTo_exp_wf g h n (by omega))

theorem buildUpTo_log_wf (g : Element) {s : State} (h : Memory.wf s.log = true) :
    ∀ n, Memory.wf (buildUpTo g s n).log = true
  | 0 => h
  | n + 1 => buildLogEntry_log_wf _ _ (buildUpTo_log_wf g h n)

/-- The builder keeps both memories canonical. -/
theorem buildTables_wf (g : Element) {s : State} (he : Memory.wf s.exp = true) (hl : Memory.wf s.log = true) :
    Memory.wf (buildTables g s).exp = true ∧ Memory.wf (buildTables g s).log = true :=
  ⟨buildUpTo_exp_wf g he 255 (le_refl _), buildUpTo_log_wf g hl 255⟩

/-- A reset edge leaves canonical memories. -/
theorem takeReset_wf (s : State) : Memory.wf s.takeReset.exp = true ∧ Memory.wf s.takeReset.log = true :=
  ⟨Memory.wf_fill _ _ (le_refl _), Memory.wf_fill _ _ (le_refl _)⟩

end Sys2Proof.Machine
end

