-- ==== Sys2Proof/Laws/PerInstr.lean ====
section
/-! SUPPORT. Statements for all commands, made per command. -/

namespace Sys2Proof.Laws.EncodesItsRow

/-- The encoding of a command is a word of its row of the match and mask table (R54). -/
def Statement (i : Instr) : Prop := i.mnemonic.pattern.spells (encode i) = true

theorem commandWord_toNat (op a b : Element) :
    (commandWord op a b).toNat = op.toNat * 65536 + a.toNat * 256 + b.toNat := by
  unfold commandWord
  rw [BitVec.toNat_append, BitVec.toNat_append, ← Nat.shiftLeft_add_eq_or_of_lt b.isLt,
    ← Nat.shiftLeft_add_eq_or_of_lt a.isLt]
  simp only [Nat.shiftLeft_eq]
  omega

theorem commandWord_getLsbD (op a b : Element) (i : Nat) :
    (commandWord op a b).getLsbD i =
      if i < 8 then b.getLsbD i else if i < 16 then a.getLsbD (i - 8) else op.getLsbD (i - 16) := by
  unfold commandWord
  rw [BitVec.getLsbD_append, BitVec.getLsbD_append]
  split
  · rfl
  · split <;> split <;> first | rfl | omega

theorem mask_two (op a b : Element) : commandWord op a b &&& 0xFF0000#24 = commandWord op 0#8 0#8 := by
  apply BitVec.eq_of_getLsbD_eq
  intro i hi
  rw [BitVec.getLsbD_and, commandWord_getLsbD, commandWord_getLsbD]
  interval_cases i <;> simp

theorem mask_one (op a : Element) : commandWord op a 0#8 &&& 0xFF00FF#24 = commandWord op 0#8 0#8 := by
  apply BitVec.eq_of_getLsbD_eq
  intro i hi
  rw [BitVec.getLsbD_and, commandWord_getLsbD, commandWord_getLsbD]
  interval_cases i <;> simp

theorem mulp (a b : Element) : Statement (.mulp a b) := by
  simp only [Statement, Pattern.spells, encode, Instr.mnemonic, Mnemonic.pattern, mask_two]; decide

theorem build (g : Element) : Statement (.build g) := by
  simp only [Statement, Pattern.spells, encode, Instr.mnemonic, Mnemonic.pattern, mask_one]; decide

theorem mult (a b : Element) : Statement (.mult a b) := by
  simp only [Statement, Pattern.spells, encode, Instr.mnemonic, Mnemonic.pattern, mask_two]; decide

theorem inv (a : Element) : Statement (.inv a) := by
  simp only [Statement, Pattern.spells, encode, Instr.mnemonic, Mnemonic.pattern, mask_one]; decide

theorem findgen : Statement .findgen := by unfold Statement; decide

theorem rdexp (e : Element) : Statement (.rdexp e) := by
  simp only [Statement, Pattern.spells, encode, Instr.mnemonic, Mnemonic.pattern, mask_one]; decide

theorem rdlog (a : Element) : Statement (.rdlog a) := by
  simp only [Statement, Pattern.spells, encode, Instr.mnemonic, Mnemonic.pattern, mask_one]; decide

end Sys2Proof.Laws.EncodesItsRow
end

