-- ==== Sys2Proof/Laws/Step.lean ====
section
/-! SUPPORT. Everything a command and a step can do, said once. -/

namespace Sys2Proof.Machine

/-- The state a command presents its response in: `BUILD` rebuilds the pair, no other command writes (R26). -/
def State.afterWrites (s : State) : Instr → State
  | .build g => buildTables g s
  | .mulp _ _ => s
  | .mult _ _ => s
  | .inv _ => s
  | .findgen => s
  | .rdexp _ => s
  | .rdlog _ => s

/-- Everything a command can do: its writes, then one response. -/
theorem exec_answers (i : Instr) (s : State) : ∃ r, exec i s = .next ((s.afterWrites i).present r) := by
  cases i <;>
    simp only [exec, execMulp, execBuild, execMult, execInv, execFindgen, execRdexp, execRdlog, respond, raise,
      State.afterWrites] <;>
    repeat' split
  all_goals exact ⟨_, rfl⟩

/-- Everything an accepted word can do: its command's effect, or the answer to an illegal word. -/
theorem runWord_answers (w : CmdWord) (s : State) :
    (∃ i r, decode w = .ok i ∧ runWord w s = .next ((s.afterWrites i).present r)) ∨
      ((∃ e, decode w = .error e) ∧ runWord w s = .next (s.present (.fault .illegal))) := by
  unfold runWord
  cases hd : decode w with
  | ok i =>
    obtain ⟨r, hr⟩ := exec_answers i s
    exact .inl ⟨i, r, rfl, hr⟩
  | error e => exact .inr ⟨⟨e, rfl⟩, rfl⟩

/-- Everything one edge can do when it answers a next state. -/
theorem edge_cases {p : Pins} {s t : State} (h : edge p s = .next t) :
    (p.rst = true ∧ t = s.takeReset) ∨
      (p.rst = false ∧ s.breaksHold p = false ∧
        ((s.port = .inReset ∧ t = s.leaveReset.offer p.cmd) ∨
          (∃ r, s.port = .responding r ∧ p.rspReady = true ∧ t = (s.deliver r).offer p.cmd) ∨
          (∃ r, s.port = .responding r ∧ p.rspReady = false ∧ t = s.offer p.cmd) ∨
          (s.port = .ready ∧ p.cmd = none ∧ t = s.offer none) ∨
          (∃ w, s.port = .ready ∧ p.cmd = some w ∧ runWord w (s.accept w) = .next t))) := by
  unfold edge at h
  split at h
  · rename_i hr
    injection h with h
    exact .inl ⟨hr, h.symm⟩
  · rename_i hr
    have hr' : p.rst = false := by simpa using hr
    refine .inr ⟨hr', ?_⟩
    split at h
    · cases h
    · rename_i hb
      refine ⟨by simpa using hb, ?_⟩
      split at h
      · rename_i hp
        injection h with h
        exact .inl ⟨hp, h.symm⟩
      · rename_i r hp
        injection h with h
        cases hq : p.rspReady with
        | true => exact .inr (.inl ⟨r, hp, rfl, by simpa [hq] using h.symm⟩)
        | false => exact .inr (.inr (.inl ⟨r, hp, rfl, by simpa [hq] using h.symm⟩))
      · rename_i hp
        split at h
        · rename_i hc
          injection h with h
          exact .inr (.inr (.inr (.inl ⟨hp, hc, h.symm⟩)))
        · rename_i w hc
          exact .inr (.inr (.inr (.inr ⟨w, hp, hc, h⟩)))

/-- Everything a step can do when it answers a next state: nothing, or the next edge of the script. -/
theorem step_cases {s t : State} (h : step s = .next t) :
    (s.script = [] ∧ t = s) ∨ ∃ p ps, s.script = p :: ps ∧ edge p (s.withScript ps) = .next t := by
  unfold step at h
  split at h
  · rename_i hs
    injection h with h
    exact .inl ⟨hs, h.symm⟩
  · rename_i p ps hs
    exact .inr ⟨p, ps, hs, h⟩

/-- The only way a step stops: an edge out of reset at which the host breaks its hold (U15). -/
theorem step_fault {s : State} {f : Fault} (h : step s = .fault f) :
    ∃ p ps, s.script = p :: ps ∧ p.rst = false ∧ s.breaksHold p = true := by
  unfold step at h
  split at h
  · cases h
  · rename_i p ps hs
    refine ⟨p, ps, hs, ?_⟩
    unfold edge at h
    split at h
    · cases h
    · rename_i hr
      split at h
      · rename_i hb
        exact ⟨by simpa using hr, hb⟩
      · split at h
        · cases h
        · cases h
        · split at h
          · cases h
          · rename_i w hc
            rcases runWord_answers w ((s.withScript ps).accept w) with ⟨i, r, _, hi⟩ | ⟨_, hi⟩ <;> rw [hi] at h <;> cases h

/-- No step is refused. -/
theorem step_not_refused (s : State) (r : Refusal) : step s ≠ .refused r := by
  intro h
  unfold step at h
  split at h
  · cases h
  · rename_i p ps hs
    unfold edge at h
    split at h
    · cases h
    · split at h
      · cases h
      · split at h
        · cases h
        · cases h
        · split at h
          · cases h
          · rename_i w hc
            rcases runWord_answers w ((s.withScript ps).accept w) with ⟨i, q, _, hi⟩ | ⟨_, hi⟩ <;> rw [hi] at h <;> cases h

end Sys2Proof.Machine
end

