-- ==== Sys2Proof/Laws/Run.lean ====
section
/-! SUPPORT. How a run of the machine takes its steps. -/

namespace Sys2Proof.Machine

@[simp] theorem core_run_zero (s : State) : Host.Core.run Sys2Proof.core 0 s = .next s := rfl

/-- A run whose first step answers a next state goes on from there. -/
theorem core_run_first {s t : State} (h : step s = .next t) (n : Nat) :
    Host.Core.run Sys2Proof.core (n + 1) s = Host.Core.run Sys2Proof.core n t := by
  have hc : Sys2Proof.core.step s = .next t := h
  simp only [Host.Core.run, hc]

/-- A run of one step more is the step from where the run came to. -/
theorem core_run_last {n : Nat} {s t : State} (h : Host.Core.run Sys2Proof.core n s = .next t) :
    Host.Core.run Sys2Proof.core (n + 1) s = step t := by
  induction n generalizing s with
  | zero =>
    injection h with h
    subst h
    have hc : Sys2Proof.core.step s = step s := rfl
    simp only [Host.Core.run, hc]
    cases step s <;> rfl
  | succ n ih =>
    cases hs : step s with
    | next u => rw [core_run_first hs] at h ⊢; exact ih h
    | fault f =>
      have hc : Sys2Proof.core.step s = .fault f := hs
      simp [Host.Core.run, hc] at h
    | refused r => exact absurd hs (step_not_refused s r)

end Sys2Proof.Machine
end

