-- ==== Sys2Proof/Tests/Slice0.lean ====
section
/-! SUPPORT. Tests: expected values from the examples and tables of spec/ (95_test_vectors.md and the rules named), one
step each; and the witnesses that the hypotheses of the statements can be met. -/

open Sys2Proof Sys2Proof.Machine

namespace Sys2Proof.Tests

/-! The checks of WellFormed refuse an ill-formed term each. -/

theorem test_illegal_opcode_zero : legalWord 0x000000#24 = false := by decide
theorem test_illegal_build_with_b : legalWord 0x020301#24 = false := by decide
theorem test_illegal_findgen_with_a : legalWord 0x050100#24 = false := by decide
theorem test_legal_mult : legalWord 0x038357#24 = true := by decide
theorem test_source_count_refused : (SourceCommand.mk .mulp [3]).countOk = false := by decide
theorem test_source_range_refused : (SourceCommand.mk .inv [256]).rangeOk = false := by decide
theorem test_source_wellFormed : (SourceCommand.mk .mulp [0, 255]).wellFormed = true := by decide
theorem test_source_not_wellFormed : (SourceCommand.mk .rdexp [256]).wellFormed = false := by decide

/-! Decoding: words written out bit by bit from R54 (opcode, `a`, `b`). -/

theorem test_decode_mulp : decode 0b00000001_10000011_01010111#24 = .ok (.mulp 0x83#8 0x57#8) := by decide
theorem test_decode_build : decode 0b00000010_00000011_00000000#24 = .ok (.build 0x03#8) := by decide
theorem test_decode_mult : decode 0b00000011_10001101_00000010#24 = .ok (.mult 0x8D#8 0x02#8) := by decide
theorem test_decode_inv : decode 0b00000100_01010011_00000000#24 = .ok (.inv 0x53#8) := by decide
theorem test_decode_findgen : decode 0b00000101_00000000_00000000#24 = .ok .findgen := by decide
theorem test_decode_rdexp : decode 0b00000110_11111110_00000000#24 = .ok (.rdexp 0xFE#8) := by decide
theorem test_decode_rdlog : decode 0b00000111_11110110_00000000#24 = .ok (.rdlog 0xF6#8) := by decide
theorem test_decode_unknown : decode 0x080000#24 = .error .unknownOpcode := by decide
theorem test_decode_build_nonzero_b : decode 0x0203FF#24 = .error .nonzeroB := by decide
theorem test_decode_findgen_nonzero_a : decode 0x050100#24 = .error .nonzeroA := by decide
theorem test_encode_inv : encode (.inv 0x02#8) = 0x040200#24 := by decide
theorem test_table_word : decodeTableWord 24 0x018357 = some (.mulp 0x83#8 0x57#8) := by decide
theorem test_table_word_illegal : decodeTableWord 24 0x070101 = none := by decide

/-! The assembler (R62, R63). -/

theorem test_assemble_line :
    (assembleLine "MULP 0x83, 0x57 ; S1".toList).toOption = some (some 0x018357#24) := by decide
theorem test_assemble_bases : (assembleLine "MULT 0b11, 5".toList).toOption = some (some 0x030305#24) := by decide
theorem test_assemble_out_of_range : assemble ⟨.inv, [256]⟩ = .error .operandRange := by decide

/-! Small states. -/

/-- A state with a few table entries of `BUILD 0x03` (95_test_vectors.md, 3.1 and 3.2): the logarithms of 02, 57, 83, 8D
and F6, and the entries of `EXP` they lead to. -/
def sample : State :=
  { State.reset with
    tv := true
    exp := [(0, 0x01#8), (0xB2, 0xC1#8), (0xE6, 0x8D#8), (0xFD, 0x52#8)]
    log := [(0x02, 0x19#8), (0x57, 0x62#8), (0x83, 0x50#8), (0x8D, 0xE6#8), (0xF6, 0xFE#8)]
    logv := BitVec.twoPow 256 0x02 ||| BitVec.twoPow 256 0x57 ||| BitVec.twoPow 256 0x83 |||
      BitVec.twoPow 256 0x8D ||| BitVec.twoPow 256 0xF6 }

/-- A state just after reset whose host presents the word at the next edge. -/
def offering (w : CmdWord) : State := State.reset.offerNext w

/-! One command each; the expected values are those of 95_test_vectors.md. -/

theorem test_mulp_example : exec (.mulp 0x83#8 0x57#8) State.reset = .next (State.reset.present (.ok 0xC1#256)) := by
  simp only [exec, execMulp, respond]
  have h : mulp 0x83#8 0x57#8 = 0xC1#8 := by decide
  rw [h]; rfl

theorem test_mulp_times_x : mulp 0x02#8 0x80#8 = 0x1B#8 ∧ mulp 0x80#8 0x02#8 = 0x1B#8 := by decide

theorem test_build_first_entries :
    (buildUpTo 0x03#8 State.reset 3).expAt 3 = 0x0F#8 ∧ (buildUpTo 0x03#8 State.reset 3).logAt 0x05#8 = 2#8 := by
  decide
theorem test_build_zero_tags_nothing :
    (buildUpTo 0x00#8 State.reset 2).logv = 0#256 ∧ (buildUpTo 0x00#8 State.reset 2).expAt 0 = 0x01#8 := by decide

theorem test_mult_largest_sum : exec (.mult 0xF6#8 0xF6#8) sample = .next (sample.present (.ok 0x52#256)) := by rfl
theorem test_mult_zero_without_tables :
    exec (.mult 0x00#8 0x05#8) State.reset = .next (State.reset.present (.fault .noTables)) := by rfl

theorem test_inv_two : exec (.inv 0x02#8) sample = .next (sample.present (.ok 0x8D#256)) := by rfl
theorem test_inv_gap : exec (.inv 0x03#8) sample = .next (sample.present (.fault .noLog)) := by rfl

theorem test_ord_three : ord 0xBC#8 = some 3 := by decide
theorem test_findgen_low_candidates : generatorsUpTo 5 = 0x68#256 := by decide +kernel

theorem test_rdexp : exec (.rdexp 0xB2#8) sample = .next (sample.present (.ok 0xC1#256)) := by rfl
theorem test_rdlog : exec (.rdlog 0xF6#8) sample = .next (sample.present (.ok 0xFE#256)) := by rfl
theorem test_rdlog_zero : exec (.rdlog 0x00#8) sample = .next (sample.present (.fault .noLog)) := by rfl

theorem test_illegal_answered :
    runWord 0x040201#24 State.reset = .next (State.reset.present (.fault .illegal)) := by rfl
theorem test_step_runs_word :
    step (State.reset.withFetchWord 24 0x060000) =
      .next { State.reset with port := .responding (.fault .noTables), accepted := [0x060000#24] } := by rfl

/-! Witnesses: for every statement with hypotheses, states and operands that meet them. -/

theorem witness_EncodeInvertsDecode : decode 0x01FFFF#24 = .ok (.mulp 0xFF#8 0xFF#8) := by decide
theorem witness_PatternsDisjoint : Mnemonic.findgen.pattern.spells 0x050000#24 = true := by decide
theorem witness_IllegalWordsAnswered :
    legalWord 0x00FFFF#24 = false ∧ legalWord 0x080000#24 = false ∧ legalWord 0xFFFFFF#24 = false ∧
      legalWord 0x0203FF#24 = false ∧ legalWord 0x070101#24 = false ∧ legalWord 0x050100#24 = false ∧
      legalWord 0x050001#24 = false := by decide
theorem witness_AssemblerNeverTruncates :
    ((SourceCommand.mk .mulp [256, 0]).countOk = true ∧ (256 ∈ [256, 0] ∧ 255 < 256)) ∧
      (SourceCommand.mk .mulp [255, 0]).wellFormed = true := by decide

theorem witness_StepRunsDecodedCommand :
    (offering 0x010303#24).script = [⟨false, some 0x010303#24, false⟩] ∧ (offering 0x010303#24).port = .ready ∧
      (offering 0x010303#24).offered = none ∧ decode 0x010303#24 = .ok (.mulp 0x03#8 0x03#8) := by decide

theorem witness_AcceptanceExactly :
    (offering 0x000000#24).script = [⟨false, some 0x000000#24, false⟩] ∧ ∃ t, step (offering 0x000000#24) = .next t :=
  ⟨by decide, _, rfl⟩

/-- A state with a response pending and one edge to come. -/
def responding (p : Pins) : State := (State.reset.present (.ok 0x05#256)).withScript [p]

theorem witness_ResponseHeldUntilTaken :
    (responding ⟨false, none, false⟩).port = .responding (.ok 0x05#256) ∧
      (responding ⟨false, none, true⟩).port = .responding (.ok 0x05#256) ∧
      (responding ⟨false, none, true⟩).offered = none := by decide

theorem witness_OnlyBrokenHoldStops :
    (∃ p ps w, ((responding ⟨false, none, false⟩).offer (some 0x010303#24)).script = p :: ps ∧ p.rst = false ∧
      ((responding ⟨false, none, false⟩).offer (some 0x010303#24)).offered = some w ∧ p.cmd ≠ some w) ∧
    ∀ p ps w, ((offering 0x010303#24).offer (some 0x010303#24)).script = p :: ps → p.rst = false →
      ((offering 0x010303#24).offer (some 0x010303#24)).offered = some w → p.cmd = some w := by
  refine ⟨⟨_, _, _, rfl, rfl, rfl, by decide⟩, ?_⟩
  intro p ps w hs _ ho
  cases hs
  cases ho
  rfl

theorem witness_MulpCancels : mulp 0x00#8 0xFF#8 = 0x00#8 ∧ (0x01#8 : Element) ≠ 0x00#8 := by decide

/-- The state after reset and one `BUILD`. -/
def built (g : Element) : State := (buildTables g State.reset).present (.ok 0#256)

theorem built_next (g : Element) : exec (.build g) State.reset = .next (built g) := rfl

theorem built_builtBy (g : Element) : (built g).BuiltBy g := ⟨_, _, built_next g, ⟨rfl, rfl, rfl, rfl⟩⟩

theorem three_is_generator : IsGenerator 0x03#8 := by unfold IsGenerator; decide +kernel

theorem witness_BuildFrame : ∃ t, exec (.build 0x03#8) State.reset = .next t := ⟨_, built_next _⟩
theorem witness_BuildForgetsOldPair :
    (∃ t, exec (.build 0x03#8) State.reset = .next t) ∧ ∃ t, exec (.build 0x03#8) sample = .next t :=
  ⟨⟨_, rfl⟩, ⟨_, rfl⟩⟩
theorem witness_GeneratorBuildsFullTables : IsGenerator 0x03#8 := three_is_generator
theorem witness_NonGeneratorLeavesGaps :
    ((0x01#8 : Element) ≠ 0x00#8 ∧ ord 0x01#8 = some 1 ∧ 1 < 255) ∧
      ((0x07#8 : Element) ≠ 0x00#8 ∧ ord 0x07#8 = some 85 ∧ 85 < 255) := by decide +kernel

theorem witness_MultAlgorithm :
    State.reset.tv = false ∧ sample.tv = true ∧ (0x03#8 : Element) ≠ 0x00#8 ∧ sample.tagged 0x03#8 = false ∧
      sample.tagged 0x83#8 = true ∧ sample.tagged 0x57#8 = true := by decide
theorem witness_MultAgreesWithMulp : IsGenerator 0x03#8 ∧ (built 0x03#8).BuiltBy 0x03#8 :=
  ⟨three_is_generator, built_builtBy _⟩

theorem ones_expAt (s : State) (n j : Nat) (h : j ≤ n) : (buildUpTo 0x01#8 s n).expAt j = 0x01#8 := by
  induction n generalizing j with
  | zero => rw [Nat.le_zero.mp h]; exact buildStart_expAt s 0
  | succ n ih =>
    rw [buildUpTo, buildIteration_expAt]
    split
    · rw [Nat.add_sub_cancel, ih n (le_refl n)]; decide
    · exact ih j (by omega)

theorem ones_tagged (s : State) (n : Nat) (hn : 1 ≤ n) (v : Element) :
    (buildUpTo 0x01#8 s n).tagged v = decide (v = 0x01#8) := by
  induction n, hn using Nat.le_induction with
  | base =>
    simp only [buildUpTo, buildIteration, buildLogEntry_tagged, State.setExp_tagged, buildStart_tagged, buildStart_expAt]
    have h : mulp 0x01#8 0x01#8 = 0x01#8 := by decide
    simp [h]
  | succ n _ ih =>
    rw [buildUpTo]
    simp only [buildIteration, buildLogEntry_tagged, State.setExp_tagged, ih, Nat.add_sub_cancel, ones_expAt s _ _ (le_refl _)]
    have h : mulp 0x01#8 0x01#8 = 0x01#8 := by decide
    simp [h]

theorem ones_logAt (s : State) (n : Nat) (hn : 1 ≤ n) :
    (buildUpTo 0x01#8 s n).logAt 0x01#8 = BitVec.ofNat 8 (n % 255) := by
  obtain ⟨n, rfl⟩ := Nat.exists_eq_add_of_le' hn
  rw [buildUpTo]
  simp only [buildIteration, buildLogEntry_logAt, Nat.add_sub_cancel, ones_expAt s _ _ (le_refl _)]
  have h : mulp 0x01#8 0x01#8 = 0x01#8 := by decide
  simp [h, Config.groupOrder]

theorem built_one_expAt (j : Nat) (h : j ≤ 255) : (built 0x01#8).expAt j = 0x01#8 := by
  rw [built, State.present_expAt, buildTables_expAt]; exact ones_expAt _ _ _ h
theorem built_one_tagged (v : Element) : (built 0x01#8).tagged v = decide (v = 0x01#8) := by
  rw [built, State.present_tagged, buildTables_tagged]; exact ones_tagged _ _ (by omega) _

theorem witness_MultInsideTheSubgroup :
    (built 0x01#8).BuiltBy 0x01#8 ∧ (built 0x01#8).tagged 0x01#8 = true ∧ (built 0x01#8).Gap 0x02#8 ∧
      (0x01#8 : Element) ≠ 0x00#8 :=
  ⟨built_builtBy _, by rw [built_one_tagged]; decide,
    ⟨by decide, fun i _ h => by rw [built_one_expAt i h]; decide⟩, by decide⟩

theorem witness_TableIndexRanges :
    (built 0x01#8).TableInvariant ∧ (built 0x01#8).tv = true ∧ (built 0x01#8).tagged 0x01#8 = true := by
  refine ⟨⟨by rw [built_one_tagged]; decide, fun _ => ⟨0x01#8, ?_⟩⟩, rfl, by rw [built_one_tagged]; decide⟩
  refine ⟨built_one_expAt 0 (by omega), built_one_expAt 1 (by omega), ?_, ?_, ?_⟩
  · intro i _ h
    rw [built_one_expAt i h, built_one_expAt (i - 1) (by omega)]; decide
  · intro v _
    rw [built_one_tagged, decide_eq_true_iff]
    constructor
    · intro hv; exact ⟨1, by omega, by omega, by rw [hv, built_one_expAt 1 (by omega)]⟩
    · rintro ⟨i, _, h, rfl⟩; exact built_one_expAt i h
  · intro v hv
    rw [built_one_tagged, decide_eq_true_iff] at hv
    subst hv
    refine ⟨255, ⟨by omega, by omega, built_one_expAt 255 (by omega), fun i _ _ => by omega⟩, ?_⟩
    rw [built, State.present_logAt, buildTables_logAt, ones_logAt _ _ (by omega)]; decide

theorem witness_InvAlgorithm :
    State.reset.tv = false ∧ sample.tv = true ∧ sample.tagged 0x03#8 = false ∧ sample.tagged 0x02#8 = true := by decide
theorem witness_InverseLaw : IsGenerator 0x03#8 ∧ (built 0x03#8).BuiltBy 0x03#8 ∧ (0x01#8 : Element) ≠ 0x00#8 :=
  ⟨three_is_generator, built_builtBy _, by decide⟩
theorem witness_InvInsideTheSubgroup :
    (built 0x01#8).BuiltBy 0x01#8 ∧ (built 0x01#8).tagged 0x01#8 = true ∧ (built 0x01#8).Gap 0xFF#8 :=
  ⟨built_builtBy _, by rw [built_one_tagged]; decide,
    ⟨by decide, fun i _ h => by rw [built_one_expAt i h]; decide⟩⟩
theorem witness_OrdIsTheOrder : (0x01#8 : Element) ≠ 0x00#8 ∧ ord 0x01#8 = some 1 := by decide
theorem witness_OrdersThatOccur :
    (255, 128) ∈ [(1, 1), (3, 2), (5, 4), (15, 8), (17, 16), (51, 32), (85, 64), (255, 128)] := by decide
theorem witness_RdexpReadsEntry :
    State.reset.tv = false ∧ sample.tv = true ∧ (0x01#8 : Element) ≠ 0x00#8 := by decide
theorem witness_RdlogReadsEntry :
    (0xFF#8 : Element) ≠ 0x00#8 ∧ State.reset.tv = false ∧ sample.tv = true ∧ sample.tagged 0x00#8 = false ∧ sample.tagged 0xF6#8 = true := by decide
theorem witness_ReadsRevealTheBuild : (built 0x00#8).BuiltBy 0x00#8 := built_builtBy _
theorem witness_ReadRoundTrips :
    IsGenerator 0x03#8 ∧ (built 0x03#8).BuiltBy 0x03#8 ∧ (0x01#8 : Element) ≠ 0x00#8 :=
  ⟨three_is_generator, built_builtBy _, by decide⟩

theorem witness_NoTablesExactly :
    ∃ t, exec (.rdexp 0x00#8) State.reset = .next t ∧ t.rspStatus = some 2#2 := ⟨_, rfl, rfl⟩
theorem witness_NoLogExactly :
    (IsGenerator 0x03#8 ∧ (built 0x03#8).BuiltBy 0x03#8) ∧
      ((built 0x01#8).BuiltBy 0x01#8 ∧ ∃ t, exec (.inv 0x02#8) (built 0x01#8) = .next t ∧ t.rspStatus = some 3#2) := by
  refine ⟨⟨three_is_generator, built_builtBy _⟩, built_builtBy _, (built 0x01#8).present (.fault .noLog), ?_, rfl⟩
  have htv : (built 0x01#8).tv = true := rfl
  have htag : (built 0x01#8).tagged 0x02#8 = false := by rw [built_one_tagged]; decide
  simp [exec, execInv, htv, htag, raise]
theorem witness_FaultsChangeNothing :
    (∃ t r, runWord 0x030005#24 State.reset = .next t ∧ t.pending = some r ∧ r.status ≠ 0#2) ∧
      ∃ t, exec (.build 0x00#8) State.reset = .next t :=
  ⟨⟨_, _, rfl, rfl, by decide⟩, _, rfl⟩
theorem witness_FaultPriority :
    legalWord 0x040201#24 = false ∧ decode 0x030005#24 = .ok (.mult 0x00#8 0x05#8) ∧
      usesTables (.mult 0x00#8 0x05#8) = true ∧ State.reset.tv = false ∧ sample.tv = true ∧
      zeroShortcut (.mult 0x00#8 0x05#8) = true ∧ decode 0x040300#24 = .ok (.inv 0x03#8) ∧
      zeroShortcut (.inv 0x03#8) = false ∧ missingLog sample (.inv 0x03#8) = true ∧
      decode 0x040200#24 = .ok (.inv 0x02#8) ∧ missingLog sample (.inv 0x02#8) = false := by decide
theorem witness_FaultsLeaveNoTrace :
    ∃ t f, runWord 0x070000#24 sample = .next t ∧ t.pending = some (.fault f) := ⟨_, .noLog, rfl, rfl⟩
theorem witness_GeneratorRunIsSafe :
    IsGenerator 0x03#8 ∧ ∀ w ∈ [0x0103FF#24, 0x020300#24],
      ∃ i, decode w = .ok i ∧ i ≠ .rdlog 0x00#8 ∧ ∀ h, i = .build h → IsGenerator h := by
  refine ⟨three_is_generator, fun w hw => ?_⟩
  simp only [List.mem_cons, List.not_mem_nil, or_false] at hw
  rcases hw with rfl | rfl
  · exact ⟨.mulp 0x03#8 0xFF#8, by decide, by decide, fun h e => by cases e⟩
  · exact ⟨.build 0x03#8, by decide, by decide, fun h e => by cases e; exact three_is_generator⟩
theorem witness_OnlyBuildWrites :
    (∃ t, exec (.inv 0x02#8) sample = .next t) ∧ ∀ g, (Instr.inv 0x02#8) ≠ .build g :=
  ⟨⟨_, rfl⟩, fun g e => by cases e⟩
theorem witness_ResetState : usesTables (.rdlog 0x00#8) = true ∧ usesTables .findgen = false := by decide
theorem witness_ResetEdges :
    [Pins.mk true none false, Pins.mk true (some 0x010303#24) true] ≠ [] ∧
      (∀ p ∈ [Pins.mk true none false, Pins.mk true (some 0x010303#24) true], p.rst = true) ∧
      ((responding ⟨false, none, false⟩).withScript
        [⟨true, none, false⟩, ⟨true, some 0x010303#24, true⟩, ⟨false, none, false⟩]).script =
        [Pins.mk true none false, Pins.mk true (some 0x010303#24) true] ++ ⟨false, none, false⟩ :: [] := by decide
theorem witness_OnlyResetDropsTables :
    (sample.withScript [⟨true, none, false⟩]).tv = true ∧
      (∃ t, step (sample.withScript [⟨true, none, false⟩]) = .next t ∧ t.tv = false) ∧
      ∃ t, exec (.build 0x02#8) sample = .next t :=
  ⟨by decide, ⟨_, rfl, rfl⟩, ⟨_, rfl⟩⟩
theorem witness_TableInvariantKept :
    (offering 0x020300#24).TableInvariant ∧ ∃ t, step (offering 0x020300#24) = .next t :=
  ⟨⟨by decide, (nofun)⟩, ⟨_, rfl⟩⟩
theorem witness_TablesComeFromBuild :
    ((offering 0x020300#24).tv = true → ∃ g, (offering 0x020300#24).BuiltBy g) ∧
      ∃ t, step (offering 0x020300#24) = .next t ∧ t.tv = true :=
  ⟨(nofun), ⟨_, rfl, rfl⟩⟩
theorem witness_MemoryInvariantKept :
    (sample.offerNext 0x020300#24).MemoryInvariant ∧ ∃ t, step (sample.offerNext 0x020300#24) = .next t :=
  ⟨⟨by decide, by decide⟩, ⟨_, rfl⟩⟩
theorem witness_UnspecifiedBytesUnobservable :
    State.reset.TablesAgree { State.reset with exp := [(0, 7#8)], log := [(255, 9#8)] } ∧
      sample.tv = true ∧ sample.TablesAgree { sample with log := (0, 9#8) :: sample.log } := by
  refine ⟨⟨rfl, (nofun), (nofun), (nofun)⟩, rfl, ⟨rfl, fun _ _ _ => rfl, fun _ => rfl, fun _ v hv => ?_⟩⟩
  have h : 0 ≠ v.toNat := by
    intro e
    have hz : v = 0x00#8 := BitVec.eq_of_toNat_eq e.symm
    subst hz
    exact absurd hv (by decide)
  simp only [State.logAt, Memory.read_cons, if_neg h]
theorem witness_TranscriptKept :
    (offering 0x000000#24).TranscriptInvariant ∧ ∃ t, step (offering 0x000000#24) = .next t :=
  ⟨⟨⟨rfl, (nofun), (nofun), (nofun)⟩, rfl⟩, ⟨_, rfl⟩⟩
theorem witness_DeafHostStalls :
    (responding (deafEdge (some 0x010303#24))).port = .responding (.ok 0x05#256) ∧
      (responding (deafEdge (some 0x010303#24))).offered = none ∧
      (responding (deafEdge (some 0x010303#24))).script =
        List.replicate 1 (deafEdge (some 0x010303#24)) ++ [] := by decide

end Sys2Proof.Tests
end

