-- ==== Sys2Proof/Proofs/IllegalWords.lean ====
section
/-! PROOFS. The legal words by their fields, how many they are, and the answer to every other word (R54 to R56). -/

namespace Sys2Proof

/-! A word is its three fields (R52). -/

@[simp] theorem opField_commandWord (op a b : Element) : opField (commandWord op a b) = op := by
  unfold opField commandWord
  rw [BitVec.extractLsb'_append_eq_of_le (by decide), BitVec.extractLsb'_append_eq_left]

@[simp] theorem aField_commandWord (op a b : Element) : aField (commandWord op a b) = a := by
  unfold aField commandWord
  rw [BitVec.extractLsb'_append_eq_of_le (by decide), BitVec.extractLsb'_append_eq_right]

@[simp] theorem bField_commandWord (op a b : Element) : bField (commandWord op a b) = b :=
  BitVec.extractLsb'_append_eq_right

@[simp] theorem commandWord_fields (w : CmdWord) : commandWord (opField w) (aField w) (bField w) = w := by
  unfold commandWord opField aField bField
  rw [BitVec.extractLsb'_append_extractLsb'_eq_extractLsb' (by decide),
    BitVec.extractLsb'_append_extractLsb'_eq_extractLsb' (by decide), BitVec.extractLsb'_eq_self]

/-- The fields as coordinates: a word for every triple of bytes, and no other words. -/
def fieldsEquiv : CmdWord ≃ Element × Element × Element where
  toFun w := (opField w, aField w, bField w)
  invFun f := commandWord f.1 f.2.1 f.2.2
  left_inv := commandWord_fields
  right_inv f := by simp

theorem fieldsEquiv_apply (w : CmdWord) : fieldsEquiv w = (opField w, aField w, bField w) := rfl

theorem word_eq_iff_fields (w v : CmdWord) :
    w = v ↔ opField w = opField v ∧ aField w = aField v ∧ bField w = bField v := by
  rw [← fieldsEquiv.apply_eq_iff_eq, fieldsEquiv_apply, fieldsEquiv_apply, Prod.mk.injEq, Prod.mk.injEq]

/-! The rows of R54 by fields. -/

/-- The opcode of a mnemonic (R54). -/
def Mnemonic.opcode : Mnemonic → Element
  | .mulp => 0x01#8
  | .build => 0x02#8
  | .mult => 0x03#8
  | .inv => 0x04#8
  | .findgen => 0x05#8
  | .rdexp => 0x06#8
  | .rdlog => 0x07#8

/-- What may stand in the `a` field beside a mnemonic's opcode (R54, R55). -/
def Mnemonic.aValues : Mnemonic → Finset Element
  | .findgen => {0x00#8}
  | .mulp | .build | .mult | .inv | .rdexp | .rdlog => Finset.univ

/-- What may stand in the `b` field beside a mnemonic's opcode (R54, R55). -/
def Mnemonic.bValues : Mnemonic → Finset Element
  | .mulp | .mult => Finset.univ
  | .build | .inv | .findgen | .rdexp | .rdlog => {0x00#8}

theorem Mnemonic.opcode_injective : Function.Injective Mnemonic.opcode := by
  intro m n
  cases m <;> cases n <;> decide

theorem Mnemonic.mem_all (m : Mnemonic) : m ∈ Mnemonic.all := by
  cases m <;> decide

/-- The opcodes of the seven commands are 1 to 7 (R54). -/
theorem opcode_cases (op : Element) : op = 0x00#8 ∨ 0x08 ≤ op.toNat ∨ ∃ m ∈ Mnemonic.all, m.opcode = op := by
  revert op
  decide

theorem Mnemonic.opcode_range (m : Mnemonic) : m.opcode ≠ 0x00#8 ∧ m.opcode.toNat < 0x08 := by
  cases m <;> decide

/-- A masked comparison of words is one of each field. -/
theorem Pattern.spells_iff_fields (p : Pattern) (w : CmdWord) :
    p.spells w = true ↔ opField w &&& opField p.mask = opField p.value ∧
      aField w &&& aField p.mask = aField p.value ∧ bField w &&& bField p.mask = bField p.value := by
  rw [Pattern.spells, beq_iff_eq, word_eq_iff_fields]
  simp only [opField, aField, bField, BitVec.extractLsb'_and]

/-- A word matches a row of R54 when it has the row's opcode and 0 in each field that must be 0. -/
theorem Mnemonic.spells_iff (m : Mnemonic) (w : CmdWord) :
    m.pattern.spells w = true ↔ opField w = m.opcode ∧ aField w ∈ m.aValues ∧ bField w ∈ m.bValues := by
  have and_ones (x : Element) : x &&& 0xFF#8 = x := BitVec.and_allOnes
  rw [Pattern.spells_iff_fields]
  generalize opField w = op, aField w = a, bField w = b
  cases m <;> simp [Mnemonic.pattern, Mnemonic.opcode, Mnemonic.aValues, Mnemonic.bValues, opField, aField, bField,
    and_ones]

theorem legalWord_iff_spells (w : CmdWord) : legalWord w = true ↔ ∃ m : Mnemonic, m.pattern.spells w = true := by
  simp [legalWord, List.any_eq_true, Mnemonic.mem_all]

/-- A word with a command's opcode is legal when its operand fields are that command's. -/
theorem legalWord_iff_of_opcode {w : CmdWord} {m : Mnemonic} (h : m.opcode = opField w) :
    legalWord w = true ↔ aField w ∈ m.aValues ∧ bField w ∈ m.bValues := by
  rw [legalWord_iff_spells]
  constructor
  · rintro ⟨n, hn⟩
    obtain ⟨hop, hfields⟩ := (n.spells_iff w).mp hn
    obtain rfl : m = n := Mnemonic.opcode_injective (h.trans hop)
    exact hfields
  · exact fun hfields => ⟨m, (m.spells_iff w).mpr ⟨h.symm, hfields⟩⟩

/-- A legal word has one of the opcodes 1 to 7 (R56). -/
theorem opField_range_of_legalWord {w : CmdWord} (h : legalWord w = true) :
    opField w ≠ 0x00#8 ∧ (opField w).toNat < 0x08 := by
  obtain ⟨m, hm⟩ := (legalWord_iff_spells w).mp h
  obtain ⟨hop, -, -⟩ := (m.spells_iff w).mp hm
  exact hop ▸ m.opcode_range

/-- The illegal words of R55 and R56. -/
theorem illegalWord_iff_fields (w : CmdWord) : legalWord w = false ↔
    (opField w = 0x00#8 ∨ 0x08 ≤ (opField w).toNat ∨
      ((opField w = 0x02#8 ∨ opField w = 0x04#8 ∨ opField w = 0x06#8 ∨ opField w = 0x07#8) ∧ bField w ≠ 0x00#8) ∨
      (opField w = 0x05#8 ∧ (aField w ≠ 0x00#8 ∨ bField w ≠ 0x00#8))) := by
  rw [← Bool.not_eq_true]
  rcases opcode_cases (opField w) with h0 | h8 | ⟨m, -, hm⟩
  · exact iff_of_true (fun hl => (opField_range_of_legalWord hl).1 h0) (.inl h0)
  · exact iff_of_true (fun hl => h8.not_gt (opField_range_of_legalWord hl).2) (.inr (.inl h8))
  · rw [legalWord_iff_of_opcode hm, ← hm]
    cases m <;> simp [Mnemonic.opcode, Mnemonic.aValues, Mnemonic.bValues, imp_iff_not_or]

/-! How many words there are (R56). -/

/-- The words that match the row of a mnemonic. -/
def Mnemonic.words (m : Mnemonic) : Finset CmdWord := Finset.univ.filter fun w => m.pattern.spells w = true

/-- How many words the row of a mnemonic has (R56). -/
def Mnemonic.wordCount : Mnemonic → Nat
  | .mulp | .mult => 65536
  | .build | .inv | .rdexp | .rdlog => 256
  | .findgen => 1

theorem Mnemonic.mem_words {m : Mnemonic} {w : CmdWord} : w ∈ m.words ↔ m.pattern.spells w = true :=
  Finset.mem_filter_univ w

theorem card_bitVec (n : Nat) : Fintype.card (BitVec n) = 2 ^ n := by
  rw [← FinEnum.card_eq_fintypeCard, FinEnum.card_bitVec]

/-- The words of a row are one opcode with every choice of the operands. -/
theorem Mnemonic.card_words (m : Mnemonic) : m.words.card = m.aValues.card * m.bValues.card := by
  have hcard : m.words.card = ({m.opcode} ×ˢ m.aValues ×ˢ m.bValues : Finset _).card :=
    Finset.card_equiv fieldsEquiv fun w => by
      simp only [Mnemonic.mem_words, Mnemonic.spells_iff, fieldsEquiv_apply, Finset.mem_product, Finset.mem_singleton]
  rw [hcard, Finset.card_product, Finset.card_product, Finset.card_singleton, one_mul]

theorem Mnemonic.card_words_eq_wordCount (m : Mnemonic) : m.words.card = m.wordCount := by
  rw [Mnemonic.card_words]
  cases m <;> simp [Mnemonic.aValues, Mnemonic.bValues, Mnemonic.wordCount, card_bitVec]

theorem Mnemonic.words_disjoint {m n : Mnemonic} (h : m ≠ n) : Disjoint m.words n.words := by
  refine Finset.disjoint_left.mpr fun w hm hn => h (Mnemonic.opcode_injective ?_)
  obtain ⟨hopm, -⟩ := (m.spells_iff w).mp (Mnemonic.mem_words.mp hm)
  obtain ⟨hopn, -⟩ := (n.spells_iff w).mp (Mnemonic.mem_words.mp hn)
  exact hopm.symm.trans hopn

theorem legalWords_eq_biUnion :
    (Finset.univ.filter fun w : CmdWord => legalWord w = true) = Mnemonic.all.toFinset.biUnion Mnemonic.words := by
  ext w
  simp [legalWord_iff_spells, Mnemonic.mem_words, Mnemonic.mem_all]

theorem card_legalWords : (Finset.univ.filter fun w : CmdWord => legalWord w = true).card = 132097 := by
  rw [legalWords_eq_biUnion, Finset.card_biUnion fun m _ n _ h => Mnemonic.words_disjoint h,
    List.sum_toFinset _ (by decide : Mnemonic.all.Nodup)]
  simp [Mnemonic.all, Mnemonic.card_words_eq_wordCount, Mnemonic.wordCount]

theorem illegalWords_eq_compl : (Finset.univ.filter fun w : CmdWord => legalWord w = false) =
    (Finset.univ.filter fun w : CmdWord => legalWord w = true)ᶜ := by
  ext w
  rw [Finset.mem_compl, Finset.mem_filter_univ, Finset.mem_filter_univ, Bool.not_eq_true]

theorem card_illegalWords : (Finset.univ.filter fun w : CmdWord => legalWord w = false).card = 16645119 := by
  rw [illegalWords_eq_compl, Finset.card_compl, card_legalWords, card_bitVec]
  norm_num

/-! The decoder accepts no illegal word. -/

/-- A word that decodes matches the row of its command (R61). -/
theorem spells_of_decode {w : CmdWord} {i : Instr} (h : decode w = .ok i) :
    i.mnemonic.pattern.spells w = true := by
  rw [Mnemonic.spells_iff]
  simp only [decode, ifZeroB] at h
  split_ifs at h <;> cases h
  all_goals simp [Instr.mnemonic, Mnemonic.opcode, Mnemonic.aValues, Mnemonic.bValues, *]

end Sys2Proof

namespace Sys2Proof.Machine

/-- Every illegal word is answered with `E_ILLEGAL`, in every state (R56, R116). -/
theorem runWord_of_illegal {w : CmdWord} (h : legalWord w = false) (s : State) :
    runWord w s = .next (s.present (.fault .illegal)) := by
  obtain ⟨i, r, hi, -⟩ | ⟨-, hrun⟩ := runWord_answers w s
  · have hlegal : legalWord w = true := (legalWord_iff_spells w).mpr ⟨i.mnemonic, spells_of_decode hi⟩
    rw [h] at hlegal
    exact absurd hlegal Bool.false_ne_true
  · exact hrun

/-- Settles O4, by reading each row of R54 as a product of field values. -/
theorem illegalWordsAnswered : Obligations.IllegalWordsAnswered := by
  unfold Obligations.IllegalWordsAnswered
  refine ⟨illegalWord_iff_fields, fun _ s h => ⟨runWord_of_illegal h s, rfl, rfl⟩, fun m => ?_, card_legalWords,
    card_illegalWords⟩
  cases m <;> exact Mnemonic.card_words_eq_wordCount _

end Sys2Proof.Machine
end

