-- ==== Sys2Proof/Proofs/MultiplierLaws.lean ====
section
/-! PROOFS. `mulp` is linear in each operand, and so commutative (R72). -/

namespace Sys2Proof.Machine

/-- The element when the bit is 1, else 0: what one iteration exclusive-ors in. -/
def selected (c : Bool) (a : Element) : Element := if c then a else 0x00#8

theorem selected_xor_element (c : Bool) (a a' : Element) :
    selected c (a ^^^ a') = selected c a ^^^ selected c a' := by
  cases c
  · exact BitVec.xor_zero.symm
  · rfl

theorem selected_xor_bit (c c' : Bool) (a : Element) :
    selected (c ^^ c') a = selected c a ^^^ selected c' a := by
  cases c <;> cases c' <;> simp [selected]

theorem timesX_eq (a : Element) : timesX a = a <<< 1 ^^^ selected (a.getLsbD 7) Config.red := by
  unfold timesX overflowFlag selected
  split <;> simp

theorem timesX_xor (a b : Element) : timesX (a ^^^ b) = timesX a ^^^ timesX b := by
  simp only [timesX_eq, BitVec.shiftLeft_xor_distrib, BitVec.getLsbD_xor, selected_xor_bit]
  ac_rfl

theorem mulpLoop_succ (n : Nat) (a b p : Element) :
    mulpLoop (n + 1) a b p = mulpLoop n (timesX a) (b >>> 1) (p ^^^ selected (b.getLsbD 0) a) := by
  rw [mulpLoop, selected]
  split <;> simp

theorem mulpLoop_xor_left (n : Nat) (a a' b p p' : Element) :
    mulpLoop n (a ^^^ a') b (p ^^^ p') = mulpLoop n a b p ^^^ mulpLoop n a' b p' := by
  induction n generalizing a a' b p p' with
  | zero => rfl
  | succ n ih =>
    simp only [mulpLoop_succ, timesX_xor, selected_xor_element, ← ih]
    congr 1
    ac_rfl

theorem mulpLoop_xor_right (n : Nat) (a b b' p p' : Element) :
    mulpLoop n a (b ^^^ b') (p ^^^ p') = mulpLoop n a b p ^^^ mulpLoop n a b' p' := by
  induction n generalizing a b b' p p' with
  | zero => rfl
  | succ n ih =>
    simp only [mulpLoop_succ, BitVec.ushiftRight_xor_distrib, BitVec.getLsbD_xor, selected_xor_bit, ← ih]
    congr 1
    ac_rfl

/-- `mulp` distributes over exclusive-or in its first operand. -/
theorem mulp_xor_left (a a' b : Element) : mulp (a ^^^ a') b = mulp a b ^^^ mulp a' b :=
  mulpLoop_xor_left _ a a' b 0#8 0#8

/-- `mulp` distributes over exclusive-or in its second operand (R72). -/
theorem mulp_xor_right (a b b' : Element) : mulp a (b ^^^ b') = mulp a b ^^^ mulp a b' :=
  mulpLoop_xor_right _ a b b' 0#8 0#8

theorem mulpLoop_zero_right (n : Nat) (a p : Element) : mulpLoop n a 0x00#8 p = p := by
  induction n generalizing a p with
  | zero => rfl
  | succ n ih => exact ih ..

theorem mulp_zero_right (a : Element) : mulp a 0x00#8 = 0x00#8 := mulpLoop_zero_right ..

theorem mulp_zero_left (b : Element) : mulp 0x00#8 b = 0x00#8 := by
  have h := mulp_xor_left b b b
  rwa [BitVec.xor_self, BitVec.xor_self] at h

theorem mulp_one_right (a : Element) : mulp a 0x01#8 = a := by
  change mulpLoop 7 (timesX a) 0x00#8 (0x00#8 ^^^ a) = a
  rw [mulpLoop_zero_right, BitVec.zero_xor]

theorem timesX_zero : timesX 0x00#8 = 0x00#8 := by decide

theorem timesX_mulpLoop (n : Nat) (a b p : Element) :
    mulpLoop n (timesX a) b (timesX p) = timesX (mulpLoop n a b p) := by
  induction n generalizing a b p with
  | zero => rfl
  | succ n ih =>
    have hs : selected (b.getLsbD 0) (timesX a) = timesX (selected (b.getLsbD 0) a) := by
      cases b.getLsbD 0
      · exact timesX_zero.symm
      · rfl
    rw [mulpLoop_succ, mulpLoop_succ, hs, ← timesX_xor, ih]

/-- The loop exclusive-ors together copies of its operand shifted by less than its count. -/
theorem mulpLoop_induction {P : Element → Prop} (hxor : ∀ a b, P a → P b → P (a ^^^ b)) (hzero : P 0x00#8)
    (n : Nat) (a b p : Element) (hp : P p) (hshift : ∀ i, i < n → P (timesX^[i] a)) : P (mulpLoop n a b p) := by
  induction n generalizing a b p with
  | zero => exact hp
  | succ n ih =>
    rw [mulpLoop_succ]
    refine ih _ _ _ (hxor _ _ hp ?_) fun i hi => hshift (i + 1) (by omega)
    cases b.getLsbD 0
    · exact hzero
    · exact hshift 0 n.succ_pos

theorem mulp_one_left (b : Element) : mulp 0x01#8 b = b := by
  revert b
  decide

/-- Every element is an exclusive-or of powers of `x` below `x^8`. -/
theorem element_xor_induction {P : Element → Prop} (hxor : ∀ a b, P a → P b → P (a ^^^ b)) (hzero : P 0x00#8)
    (hpow : ∀ i, i < 8 → P (timesX^[i] 0x01#8)) (b : Element) : P b :=
  mulp_one_left b ▸ mulpLoop_induction hxor hzero 8 0x01#8 b 0x00#8 hzero hpow

theorem mulp_timesX_left (a b : Element) : mulp (timesX a) b = timesX (mulp a b) := by
  have h := timesX_mulpLoop Config.multiplierIterations a b 0x00#8
  rwa [timesX_zero] at h

theorem mulp_iterate_timesX_left (i : Nat) (a b : Element) : mulp (timesX^[i] a) b = timesX^[i] (mulp a b) := by
  have h : Function.Semiconj (mulp · b) timesX timesX := fun c => mulp_timesX_left c b
  exact h.iterate_right i a

/-- The set bit of the second operand picks the copy of the first that has been shifted as often. -/
theorem mulp_iterate_timesX_right (a : Element) (i : Nat) (hi : i < 8) : mulp a (timesX^[i] 0x01#8) = timesX^[i] a := by
  have hbit : timesX^[i] 0x01#8 = BitVec.twoPow 8 i := by
    revert i
    decide
  rw [hbit]
  interval_cases i <;> simp [mulp, Config.multiplierIterations, mulpLoop]

/-- `mulp` is commutative (R72). -/
theorem mulp_comm (a b : Element) : mulp a b = mulp b a := by
  induction b using element_xor_induction with
  | hxor b b' hb hb' => rw [mulp_xor_right, mulp_xor_left, hb, hb']
  | hzero => rw [mulp_zero_right, mulp_zero_left]
  | hpow i hi => rw [mulp_iterate_timesX_right a i hi, mulp_iterate_timesX_left, mulp_one_left]

end Sys2Proof.Machine
end

