-- ==== Sys2Proof/Proofs/PowersAndOrder.lean ====
section
/-! PROOFS. The powers of an element repeat with its order, and those of a generator are all the nonzero elements
(R101, R82). -/

namespace Sys2Proof.Machine

theorem power_eq_iterate (g : Element) (n : Nat) : power g n = (mulp g)^[n] 0x01#8 := by
  induction n with
  | zero => rfl
  | succ n ih => rw [power, ih, Function.iterate_succ_apply']

theorem power_one (g : Element) : power g 1 = g := mulp_one_right g

/-- A power that is 0 makes every later power 0. -/
theorem power_eq_zero_of_le {g : Element} {i j : Nat} (hij : i ≤ j) (h : power g i = 0x00#8) : power g j = 0x00#8 := by
  induction j, hij using Nat.le_induction with
  | base => exact h
  | succ j _ ih => rw [power, ih, mulp_zero_right]

theorem ordLoop_eq_some_iff (g : Element) (n k m : Nat) :
    ordLoop g n (power g k) k = some m ↔
      k ≤ m ∧ m < k + n ∧ power g m = 0x01#8 ∧ ∀ j, k ≤ j → j < m → power g j ≠ 0x01#8 := by
  induction n generalizing k with
  | zero =>
    refine iff_of_false nofun ?_
    rintro ⟨hlo, hhi, -⟩
    omega
  | succ n ih =>
    rw [ordLoop]
    split
    · next hone =>
      rw [Option.some.injEq]
      refine ⟨?_, ?_⟩
      · rintro rfl
        exact ⟨le_refl k, by omega, hone, fun j hj hjk => absurd hjk hj.not_gt⟩
      · rintro ⟨hlo, -, -, hmin⟩
        exact hlo.eq_of_not_lt fun hlt => hmin k (le_refl k) hlt hone
    · next hone =>
      rw [mulp_comm (power g k) g]
      refine (ih (k + 1)).trans ⟨?_, ?_⟩
      · rintro ⟨hlo, hhi, hpow, hmin⟩
        refine ⟨by omega, by omega, hpow, fun j hj hjm => ?_⟩
        obtain rfl | hj := hj.eq_or_lt
        · exact hone
        · exact hmin j hj hjm
      · rintro ⟨hlo, hhi, hpow, hmin⟩
        have hne : k ≠ m := by rintro rfl; exact hone hpow
        exact ⟨by omega, by omega, hpow, fun j hj => hmin j (by omega)⟩

/-- `ord` finds the least positive exponent of at most 255 that gives 1. -/
theorem ord_eq_some_iff (g : Element) (k : Nat) :
    ord g = some k ↔ 1 ≤ k ∧ k ≤ 255 ∧ power g k = 0x01#8 ∧ ∀ j, 1 ≤ j → j < k → power g j ≠ 0x01#8 := by
  have h := ordLoop_eq_some_iff g 255 1 k
  rwa [power_one, Nat.add_comm, Nat.lt_succ_iff] at h

/-- The order is the period of multiplying by `g` from 1. -/
theorem minimalPeriod_mulp_of_ord {g : Element} {k : Nat} (h : ord g = some k) :
    Function.minimalPeriod (mulp g) 0x01#8 = k := by
  obtain ⟨hpos, -, hone, hmin⟩ := (ord_eq_some_iff g k).mp h
  have hper : Function.IsPeriodicPt (mulp g) k 0x01#8 := (power_eq_iterate g k).symm.trans hone
  refine (hper.minimalPeriod_le hpos).eq_of_not_lt fun hlt => ?_
  refine hmin _ (hper.minimalPeriod_pos hpos) hlt ?_
  rw [power_eq_iterate]
  exact Function.isPeriodicPt_minimalPeriod _ _

theorem power_mod_ord {g : Element} {k : Nat} (h : ord g = some k) (n : Nat) : power g (n % k) = power g n := by
  rw [power_eq_iterate, power_eq_iterate, ← minimalPeriod_mulp_of_ord h]
  exact Function.iterate_mod_minimalPeriod_eq

/-- The powers below the order are distinct. -/
theorem power_inj_of_lt_ord {g : Element} {k i j : Nat} (h : ord g = some k) (hi : i < k) (hj : j < k)
    (hij : power g i = power g j) : i = j := by
  rw [power_eq_iterate, power_eq_iterate] at hij
  rw [← minimalPeriod_mulp_of_ord h] at hi hj
  exact Function.iterate_injOn_Iio_minimalPeriod hi hj hij

theorem power_eq_power_iff {g : Element} {k : Nat} (h : ord g = some k) (i j : Nat) :
    power g i = power g j ↔ i % k = j % k := by
  obtain ⟨hpos, -⟩ := (ord_eq_some_iff g k).mp h
  rw [← power_mod_ord h i, ← power_mod_ord h j]
  exact ⟨power_inj_of_lt_ord h (Nat.mod_lt i hpos) (Nat.mod_lt j hpos), congrArg (power g)⟩

/-- An element that has an order has no power 0. -/
theorem power_ne_zero_of_ord {g : Element} {k : Nat} (h : ord g = some k) (n : Nat) : power g n ≠ 0x00#8 := by
  obtain ⟨hpos, -, hone, -⟩ := (ord_eq_some_iff g k).mp h
  intro hn
  rw [← power_mod_ord h] at hn
  have hzero := power_eq_zero_of_le (Nat.mod_lt n hpos).le hn
  rw [hone] at hzero
  exact absurd hzero (by decide)

/-- The powers of a generator are all the nonzero elements (R82). -/
theorem exists_power_eq {g : Element} (h : IsGenerator g) {v : Element} (hv : v ≠ 0x00#8) :
    ∃ i, i < 255 ∧ power g i = v := by
  have hmaps : Set.MapsTo (power g) (Finset.range 255) (Finset.univ.erase (0x00#8 : Element)) := fun i _ =>
    Finset.mem_erase.mpr ⟨power_ne_zero_of_ord h i, Finset.mem_univ _⟩
  have hinj : Set.InjOn (power g) (Finset.range 255) := fun i hi j hj =>
    power_inj_of_lt_ord h (Finset.mem_range.mp hi) (Finset.mem_range.mp hj)
  have hcard : (Finset.univ.erase (0x00#8 : Element)).card ≤ (Finset.range 255).card := by
    rw [Finset.card_erase_of_mem (Finset.mem_univ _), Finset.card_univ, card_bitVec, Finset.card_range]
    decide
  obtain ⟨i, hi, hiv⟩ := Finset.surjOn_of_injOn_of_card_le _ hmaps hinj hcard
    (Finset.mem_erase.mpr ⟨hv, Finset.mem_univ v⟩)
  exact ⟨i, Finset.mem_range.mp hi, hiv⟩

end Sys2Proof.Machine
end

