-- ==== Sys2Proof/Proofs/TableBuilder.lean ====
section
/-! PROOFS. The pair `BUILD` leaves, that nothing of the earlier pair is in it, and the full tables of a generator
(R77 to R82). -/

namespace Sys2Proof.Machine

/-! The tables after each iteration (R77). -/

/-- `EXP` holds the powers of `g` as far as the iterations went. -/
theorem buildUpTo_expAt (g : Element) (s : State) {n j : Nat} (h : j ≤ n) : (buildUpTo g s n).expAt j = power g j := by
  induction n generalizing j with
  | zero =>
    obtain rfl := Nat.le_zero.mp h
    exact buildStart_expAt s 0
  | succ n ih =>
    rw [buildUpTo, buildIteration_expAt]
    split
    · next hj => rw [hj, Nat.add_sub_cancel, ih (le_refl n), power]
    · exact ih (by omega)

theorem buildUpTo_succ (g : Element) (s : State) (n : Nat) :
    buildUpTo g s (n + 1) =
      buildLogEntry (n + 1) (power g (n + 1)) ((buildUpTo g s n).setExp (n + 1) (power g (n + 1))) := by
  rw [buildUpTo, buildIteration, Nat.add_sub_cancel, buildUpTo_expAt g s (le_refl n), power]

theorem buildUpTo_tagged_iff (g : Element) (s : State) (n : Nat) (v : Element) :
    (buildUpTo g s n).tagged v = true ↔ v ≠ 0x00#8 ∧ ∃ i, 1 ≤ i ∧ i ≤ n ∧ power g i = v := by
  induction n with
  | zero =>
    rw [buildUpTo, buildStart_tagged]
    refine iff_of_false Bool.false_ne_true ?_
    rintro ⟨-, i, hlo, hhi, -⟩
    omega
  | succ n ih =>
    rw [buildUpTo_succ, buildLogEntry_tagged, State.setExp_tagged, Bool.or_eq_true, Bool.and_eq_true,
      decide_eq_true_iff, decide_eq_true_iff, ih]
    constructor
    · rintro (⟨rfl, hv⟩ | ⟨hv, i, hlo, hhi, rfl⟩)
      · exact ⟨hv, n + 1, by omega, le_refl _, rfl⟩
      · exact ⟨hv, i, hlo, by omega, rfl⟩
    · rintro ⟨hv, i, hlo, hhi, rfl⟩
      obtain rfl | hhi := hhi.eq_or_lt
      · exact .inl ⟨rfl, hv⟩
      · exact .inr ⟨hv, i, hlo, by omega, rfl⟩

/-- A tagged element keeps the last index that wrote it, modulo 255. -/
theorem buildUpTo_logAt (g : Element) (s : State) (n : Nat) {v : Element} (hv : (buildUpTo g s n).tagged v = true) :
    (buildUpTo g s n).logAt v = BitVec.ofNat 8 (Nat.findGreatest (fun i => power g i = v) n % 255) := by
  induction n with
  | zero =>
    rw [buildUpTo, buildStart_tagged] at hv
    exact absurd hv Bool.false_ne_true
  | succ n ih =>
    have hne := ((buildUpTo_tagged_iff g s (n + 1) v).mp hv).1
    rw [buildUpTo_succ, buildLogEntry_tagged, State.setExp_tagged] at hv
    rw [buildUpTo_succ, buildLogEntry_logAt, Nat.findGreatest_succ]
    by_cases h : v = power g (n + 1)
    · rw [if_pos ⟨h, h ▸ hne⟩, if_pos h.symm, Config.groupOrder]
    · rw [if_neg fun hw => h hw.1, if_neg (Ne.symm h), State.setExp_logAt]
      rw [decide_eq_false h, Bool.false_and, Bool.false_or] at hv
      exact ih hv

/-! The pair `BUILD` leaves (R77). -/

theorem buildTables_expAt_eq_power (g : Element) (s : State) {i : Nat} (hi : i ≤ 255) :
    (buildTables g s).expAt i = power g i := by
  rw [buildTables_expAt, buildUpTo_expAt g s hi]

theorem buildTables_tagged_zero (g : Element) (s : State) : (buildTables g s).tagged 0x00#8 = false := by
  rw [buildTables_tagged, ← Bool.not_eq_true, buildUpTo_tagged_iff]
  exact fun h => h.1 rfl

theorem buildTables_tagged_iff (g : Element) (s : State) (v : Element) :
    (buildTables g s).tagged v = true ↔ v ≠ 0x00#8 ∧ ∃ i, 1 ≤ i ∧ i ≤ 255 ∧ (buildTables g s).expAt i = v := by
  rw [buildTables_tagged, buildUpTo_tagged_iff]
  refine and_congr_right fun _ => exists_congr fun i => and_congr_right fun _ => and_congr_right fun hi => ?_
  rw [buildTables_expAt_eq_power g s hi]

/-- An element that some iteration wrote has its greatest index as last index. -/
theorem buildTables_lastIndex (g : Element) (s : State) {i : Nat} (hlo : 1 ≤ i) (hhi : i ≤ 255) :
    (buildTables g s).LastIndex (power g i) (Nat.findGreatest (fun j => power g j = power g i) 255) := by
  have hle := Nat.findGreatest_le (P := fun j => power g j = power g i) 255
  refine ⟨hlo.trans (Nat.le_findGreatest hhi rfl), hle, ?_, fun j hj hj255 => ?_⟩
  · rw [buildTables_expAt_eq_power g s hle]
    exact Nat.findGreatest_spec (P := fun j => power g j = power g i) hhi rfl
  · rw [buildTables_expAt_eq_power g s hj255]
    exact Nat.findGreatest_is_greatest hj hj255

/-- The pair `BUILD g` leaves is that of R24 (c), whatever pair there was before (R77). -/
theorem buildTables_holdsPowersOf (g : Element) (s : State) : (buildTables g s).HoldsPowersOf g where
  exp_zero := buildTables_expAt_eq_power g s (by omega)
  exp_one := (buildTables_expAt_eq_power g s (by omega)).trans (power_one g)
  exp_rec i hlo hhi := by
    obtain ⟨i, rfl⟩ := Nat.exists_eq_add_of_le' hlo
    rw [buildTables_expAt_eq_power g s hhi, Nat.add_sub_cancel, buildTables_expAt_eq_power g s (by omega), power]
  tag v hv := (buildTables_tagged_iff g s v).trans (and_iff_right hv)
  log v hv := by
    obtain ⟨-, i, hlo, hhi, rfl⟩ := (buildTables_tagged_iff g s v).mp hv
    rw [buildTables_expAt_eq_power g s hhi] at hv ⊢
    refine ⟨_, buildTables_lastIndex g s hlo hhi, ?_⟩
    rw [buildTables_logAt, buildUpTo_logAt g s 255 hv, BitVec.toNat_ofNat]
    omega

/-! What two states with like tables share. -/

theorem State.SameTables.expAt_eq {s t : State} (h : s.SameTables t) (i : Nat) : s.expAt i = t.expAt i :=
  congrArg (Memory.read · i) h.exp

theorem State.SameTables.logAt_eq {s t : State} (h : s.SameTables t) (v : Element) : s.logAt v = t.logAt v :=
  congrArg (Memory.read · v.toNat) h.log

theorem State.SameTables.tagged_eq {s t : State} (h : s.SameTables t) (v : Element) : s.tagged v = t.tagged v :=
  congrArg (BitVec.getLsbD · v.toNat) h.logv

theorem State.logv_eq_of_tagged {s t : State} (h : ∀ v, s.tagged v = t.tagged v) : s.logv = t.logv := by
  refine BitVec.eq_of_getLsbD_eq fun i hi => ?_
  have hv := h (BitVec.ofNat 8 i)
  rwa [State.tagged, State.tagged, BitVec.toNat_ofNat, Nat.mod_eq_of_lt hi] at hv

/-- A last index depends on `EXP[1..255]` only. -/
theorem State.LastIndex.congr {s t : State} {v : Element} {j : Nat} (hexp : ∀ i, i ≤ 255 → s.expAt i = t.expAt i)
    (h : s.LastIndex v j) : t.LastIndex v j where
  low := h.low
  high := h.high
  here := hexp j h.high ▸ h.here
  last i hj hi := hexp i hi ▸ h.last i hj hi

theorem State.LastIndex.unique {s : State} {v : Element} {i j : Nat} (hi : s.LastIndex v i) (hj : s.LastIndex v j) :
    i = j := by
  obtain hlt | heq | hgt := Nat.lt_trichotomy i j
  · exact absurd hj.here (hi.last j hlt hj.high)
  · exact heq
  · exact absurd hi.here (hj.last i hgt hi.high)

theorem State.HoldsPowersOf.of_sameTables {s t : State} {g : Element} (hs : s.HoldsPowersOf g) (h : s.SameTables t) :
    t.HoldsPowersOf g := by
  obtain ⟨hzero, hone, hrec, htag, hlog⟩ := hs
  simp only [h.expAt_eq, h.tagged_eq, h.logAt_eq] at hzero hone hrec htag hlog
  refine ⟨hzero, hone, hrec, htag, fun v hv => ?_⟩
  obtain ⟨j, hlast, hj⟩ := hlog v hv
  exact ⟨j, hlast.congr fun i _ => h.expAt_eq i, hj⟩

theorem State.HoldsPowersOf.expAt_eq_power {s : State} {g : Element} (h : s.HoldsPowersOf g) {i : Nat} (hi : i ≤ 255) :
    s.expAt i = power g i := by
  induction i with
  | zero => exact h.exp_zero
  | succ i ih => rw [h.exp_rec (i + 1) (by omega) hi, Nat.add_sub_cancel, ih (by omega), power]

/-- Two pairs of the same operand read alike wherever a command can read (R79). -/
theorem State.HoldsPowersOf.tablesAgree {s t : State} {g : Element} (hs : s.HoldsPowersOf g) (ht : t.HoldsPowersOf g)
    (htv : s.tv = t.tv) (hzero : s.tagged 0x00#8 = t.tagged 0x00#8) : s.TablesAgree t := by
  have hexp (i : Nat) (hi : i ≤ 255) : s.expAt i = t.expAt i := by
    rw [hs.expAt_eq_power hi, ht.expAt_eq_power hi]
  have htag (v : Element) : s.tagged v = t.tagged v := by
    by_cases hv : v = 0x00#8
    · rw [hv, hzero]
    · rw [Bool.eq_iff_iff, hs.tag v hv, ht.tag v hv]
      refine exists_congr fun i => and_congr_right fun _ => and_congr_right fun hi => ?_
      rw [hexp i hi]
  refine ⟨htv, fun _ i hi => hexp i (by omega), fun _ => State.logv_eq_of_tagged htag, fun _ v hv => ?_⟩
  obtain ⟨j, hj, hjlog⟩ := hs.log v hv
  obtain ⟨k, hk, hklog⟩ := ht.log v (htag v ▸ hv)
  obtain rfl := (hj.congr hexp).unique hk
  exact BitVec.eq_of_toNat_eq (hjlog.trans hklog.symm)

/-! The pair of a `BUILD` (R76). -/

theorem exec_build (g : Element) (s : State) :
    exec (.build g) s = .next ((buildTables g s).present (.ok 0#256)) := rfl

theorem builtBy_of_exec {g : Element} {s t : State} (h : exec (.build g) s = .next t) : t.BuiltBy g :=
  ⟨s, t, h, rfl, rfl, rfl, rfl⟩

theorem State.BuiltBy.sameTables {u : State} {g : Element} (h : u.BuiltBy g) :
    ∃ s, (buildTables g s).SameTables u := by
  obtain ⟨s, t, hexec, htv, hexp, hlog, hlogv⟩ := h
  obtain rfl := respond_next hexec
  exact ⟨s, htv.symm, hexp.symm, hlog.symm, hlogv.symm⟩

theorem State.BuiltBy.tv_eq {u : State} {g : Element} (h : u.BuiltBy g) : u.tv = true := by
  obtain ⟨s, hs⟩ := h.sameTables
  exact hs.tv.symm

/-- Element 0 has no log entry (R81). -/
theorem State.BuiltBy.tagged_zero {u : State} {g : Element} (h : u.BuiltBy g) : u.tagged 0x00#8 = false := by
  obtain ⟨s, hs⟩ := h.sameTables
  rw [← hs.tagged_eq, buildTables_tagged_zero]

theorem State.BuiltBy.holdsPowersOf {u : State} {g : Element} (h : u.BuiltBy g) : u.HoldsPowersOf g := by
  obtain ⟨s, hs⟩ := h.sameTables
  exact (buildTables_holdsPowersOf g s).of_sameTables hs

/-- Settles O15, by the loop's invariant: after `n` iterations `EXP` holds the powers up to `n` and `LOG` their last
indices. -/
theorem buildRunsTheAlgorithm : Obligations.BuildRunsTheAlgorithm := by
  unfold Obligations.BuildRunsTheAlgorithm
  intro g s
  have hbuilt := builtBy_of_exec (exec_build g s)
  exact ⟨_, exec_build g s, rfl, hbuilt.tv_eq, hbuilt.tagged_zero, hbuilt.holdsPowersOf⟩

/-- Settles O17: both pairs hold the powers of `g` and their last indices, which `g` alone fixes. -/
theorem buildForgetsOldPair : Obligations.BuildForgetsOldPair := by
  unfold Obligations.BuildForgetsOldPair
  intro g s s' t t' hs hs'
  have ht := builtBy_of_exec hs
  have ht' := builtBy_of_exec hs'
  exact ht.holdsPowersOf.tablesAgree ht'.holdsPowersOf (ht.tv_eq.trans ht'.tv_eq.symm)
    (ht.tagged_zero.trans ht'.tagged_zero.symm)

/-! The pair of an operand that has an order, and the full tables of a generator (R82). -/

section
variable {g : Element} {u : State} (hu : u.HoldsPowersOf g)
include hu

/-- `EXP` repeats with the order of the operand, and not earlier. -/
theorem State.HoldsPowersOf.expAt_eq_expAt_iff {k i j : Nat} (hk : ord g = some k) (hi : i ≤ 255) (hj : j ≤ 255) :
    u.expAt i = u.expAt j ↔ i % k = j % k := by
  rw [hu.expAt_eq_power hi, hu.expAt_eq_power hj, power_eq_power_iff hk]

theorem State.HoldsPowersOf.expAt_ne_zero {k i : Nat} (hk : ord g = some k) (hi : i ≤ 255) : u.expAt i ≠ 0x00#8 :=
  hu.expAt_eq_power hi ▸ power_ne_zero_of_ord hk i

theorem State.HoldsPowersOf.exists_expAt_eq (hg : IsGenerator g) {v : Element} (hv : v ≠ 0x00#8) :
    ∃ i, i < 255 ∧ u.expAt i = v := by
  obtain ⟨i, hi, rfl⟩ := exists_power_eq hg hv
  exact ⟨i, hi, hu.expAt_eq_power hi.le⟩

/-- Iteration 255 tags the element of index 0, which is 1; every other index is an iteration of its own (R80). -/
theorem State.HoldsPowersOf.tagged_of_ne_zero (hg : IsGenerator g) {v : Element} (hv : v ≠ 0x00#8) :
    u.tagged v = true := by
  obtain ⟨i, hi, rfl⟩ := hu.exists_expAt_eq hg hv
  rw [hu.tag _ hv]
  obtain rfl | hpos := i.eq_zero_or_pos
  · exact ⟨255, by omega, le_refl _, (hu.expAt_eq_expAt_iff hg (le_refl _) (by omega)).mpr rfl⟩
  · exact ⟨i, hpos, hi.le, rfl⟩

theorem State.HoldsPowersOf.logAt_expAt (hg : IsGenerator g) {i : Nat} (hi : i < 255) :
    (u.logAt (u.expAt i)).toNat = i := by
  obtain ⟨j, hlast, hj⟩ := hu.log _ (hu.tagged_of_ne_zero hg (hu.expAt_ne_zero hg hi.le))
  have hmod := (hu.expAt_eq_expAt_iff hg hlast.high hi.le).mp hlast.here
  rw [hj, hmod, Nat.mod_eq_of_lt hi]

end

/-- Settles O18: the powers of an element of order 255 do not repeat below index 255, so they are all the 255
nonzero elements. -/
theorem generatorBuildsFullTables : Obligations.GeneratorBuildsFullTables := by
  unfold Obligations.GeneratorBuildsFullTables
  intro g s hg
  have hbuilt := builtBy_of_exec (exec_build g s)
  have hu := hbuilt.holdsPowersOf
  refine ⟨_, exec_build g s, hbuilt.tv_eq, fun i hi => hu.expAt_eq_power hi, hu.exp_zero, ?last, ?inj, ?injOnce, ?all,
    hbuilt.tagged_zero, fun v hv => hu.tagged_of_ne_zero hg hv, fun i hi => hu.logAt_expAt hg hi⟩
  case last => exact (hu.expAt_eq_power (le_refl 255)).trans (power_mod_ord hg 255).symm
  case inj =>
    intro i j hi hj hij
    rw [hu.expAt_eq_expAt_iff hg hi.le hj.le] at hij
    omega
  case injOnce =>
    intro i j hi hi' hj hj' hij
    rw [hu.expAt_eq_expAt_iff hg hi' hj'] at hij
    omega
  case all =>
    refine fun v => ⟨hu.exists_expAt_eq hg, ?_⟩
    rintro ⟨i, hi, rfl⟩
    exact hu.expAt_ne_zero hg hi.le

end Sys2Proof.Machine
end

/-! PROOFS. What `MULT` answers in every state (R88), and that on the tables of a generator it answers as `MULP` does
(R91). -/

namespace Sys2Proof.Machine

/-! The four answers of `MULT`, one for each outcome of its tests (R88, R89). -/

theorem mulp_answers (a b : Element) (s : State) : Answers (.mulp a b) s (elementData (mulp a b)) := rfl

theorem exec_mult (a b : Element) (s : State) : exec (.mult a b) s = execMult a b s := rfl

theorem mult_raises_noTables {s : State} (htv : s.tv = false) (a b : Element) : Raises (.mult a b) s .noTables := by
  rw [Raises, exec_mult, execMult, if_pos htv, raise]

section
variable {s : State} (htv : s.tv = true) {a b : Element}
include htv

theorem mult_answers_zero (hab : a = 0x00#8 ∨ b = 0x00#8) : Answers (.mult a b) s (elementData 0x00#8) := by
  rw [Answers, exec_mult, execMult, if_neg (by simp [htv]), if_pos hab, respond]

theorem mult_raises_noLog (ha : a ≠ 0x00#8) (hb : b ≠ 0x00#8) (htag : s.tagged a = false ∨ s.tagged b = false) :
    Raises (.mult a b) s .noLog := by
  rw [Raises, exec_mult, execMult, if_neg (by simp [htv]), if_neg (not_or.mpr ⟨ha, hb⟩), raise]
  obtain hta | htb := htag
  · rw [if_pos hta]
  · rw [if_pos htb, ite_self]

theorem mult_answers_expAt (ha : a ≠ 0x00#8) (hb : b ≠ 0x00#8) (hta : s.tagged a = true) (htb : s.tagged b = true) :
    Answers (.mult a b) s (elementData (s.expAt (multIndex (s.logAt a) (s.logAt b)))) := by
  rw [Answers, exec_mult, execMult, if_neg (by simp [htv]), if_neg (not_or.mpr ⟨ha, hb⟩), if_neg (by simp [hta]),
    if_neg (by simp [htb]), respond]

end

/-- Settles O21: the four cases are the outcomes of the tests of R88, in their order. -/
theorem multAlgorithm : Obligations.MultAlgorithm := by
  unfold Obligations.MultAlgorithm
  intro a b s
  exact ⟨fun htv => mult_raises_noTables htv a b, fun htv => mult_answers_zero htv, fun htv => mult_raises_noLog htv,
    fun htv => mult_answers_expAt htv⟩

/-! The product of two powers. -/

/-- `mulp` is associative (R72). -/
theorem mulp_assoc (a b c : Element) : mulp (mulp a b) c = mulp a (mulp b c) := by
  induction a using element_xor_induction with
  | hxor a a' ha ha' => rw [mulp_xor_left, mulp_xor_left, mulp_xor_left, ha, ha']
  | hzero => simp only [mulp_zero_left]
  | hpow i hi => simp only [mulp_iterate_timesX_left, mulp_one_left]

theorem power_add (g : Element) (m n : Nat) : power g (m + n) = mulp (power g m) (power g n) := by
  induction m with
  | zero => rw [Nat.zero_add, power, mulp_one_left]
  | succ m ih => rw [Nat.succ_add, power, power, ih, mulp_assoc]

theorem power_mod_of_power_eq_one {g : Element} {k : Nat} (h : power g k = 0x01#8) (n : Nat) :
    power g (n % k) = power g n := by
  rw [power_eq_iterate] at h
  rw [power_eq_iterate, power_eq_iterate]
  exact Function.IsPeriodicPt.iterate_mod_apply h n

theorem power_groupOrder_of_isGenerator {g : Element} (hg : IsGenerator g) : power g 255 = 0x01#8 :=
  (power_mod_ord hg 255).symm

/-! The lookup of `MULT` on the powers of an element whose power 255 is 1. -/

section
variable {g : Element} {u : State} (hu : u.HoldsPowersOf g) (hone : power g 255 = 0x01#8)
include hu hone

/-- The logarithm of a tagged element is an exponent of it: reducing the last index modulo 255 keeps the power. -/
theorem State.HoldsPowersOf.power_logAt {v : Element} (hv : u.tagged v = true) : power g (u.logAt v).toNat = v := by
  obtain ⟨j, hlast, hj⟩ := hu.log v hv
  rw [hj, power_mod_of_power_eq_one hone, ← hu.expAt_eq_power hlast.high, hlast.here]

theorem State.HoldsPowersOf.expAt_multIndex {a b : Element} (ha : u.tagged a = true) (hb : u.tagged b = true) :
    u.expAt (multIndex (u.logAt a) (u.logAt b)) = mulp a b := by
  have hindex : multIndex (u.logAt a) (u.logAt b) ≤ 255 := (Nat.mod_lt _ (by decide)).le
  calc u.expAt (multIndex (u.logAt a) (u.logAt b))
      = power g (((u.logAt a).toNat + (u.logAt b).toNat) % 255) := hu.expAt_eq_power hindex
    _ = power g ((u.logAt a).toNat + (u.logAt b).toNat) := power_mod_of_power_eq_one hone _
    _ = mulp a b := by rw [power_add, hu.power_logAt hone ha, hu.power_logAt hone hb]

end

/-- On the tables of a generator every nonzero element has its logarithm, and 0 is answered without one. -/
theorem State.BuiltBy.mult_answers_mulp {g : Element} {u : State} (hu : u.BuiltBy g) (hg : IsGenerator g)
    (a b : Element) : Answers (.mult a b) u (elementData (mulp a b)) := by
  have hpowers := hu.holdsPowersOf
  by_cases hzero : a = 0x00#8 ∨ b = 0x00#8
  · have hprod : mulp a b = 0x00#8 := by
      obtain rfl | rfl := hzero
      · exact mulp_zero_left b
      · exact mulp_zero_right a
    rw [hprod]
    exact mult_answers_zero hu.tv_eq hzero
  · obtain ⟨ha, hb⟩ := not_or.mp hzero
    have hta := hpowers.tagged_of_ne_zero hg ha
    have htb := hpowers.tagged_of_ne_zero hg hb
    rw [← hpowers.expAt_multIndex (power_groupOrder_of_isGenerator hg) hta htb]
    exact mult_answers_expAt hu.tv_eq ha hb hta htb

/-- Settles O22: on the powers of a generator adding logarithms modulo 255 multiplies the elements. -/
theorem multAgreesWithMulp : Obligations.MultAgreesWithMulp := by
  unfold Obligations.MultAgreesWithMulp
  intro g u hg hu a b
  have hab := hu.mult_answers_mulp hg a b
  have hba := hu.mult_answers_mulp hg b a
  rw [mulp_comm b a] at hba
  exact ⟨hab, hab.trans (mulp_answers a b u).symm, hab.trans hba.symm⟩

end Sys2Proof.Machine

/-! PROOFS. What `INV` answers in every state (R95), and that on the tables of a generator it answers the inverse
(R97). -/

namespace Sys2Proof.Machine

/-! The four answers of `INV`, one for each outcome of its tests (R95). -/

theorem exec_inv (a : Element) (s : State) : exec (.inv a) s = execInv a s := rfl

theorem inv_raises_noTables {s : State} (htv : s.tv = false) (a : Element) : Raises (.inv a) s .noTables := by
  rw [Raises, exec_inv, execInv, if_pos htv, raise]

section
variable {s : State} (htv : s.tv = true)
include htv

theorem inv_answers_zero : Answers (.inv 0x00#8) s (elementData 0x00#8) := by
  rw [Answers, exec_inv, execInv, if_neg (by simp [htv]), if_pos rfl, respond]

variable {a : Element} (ha : a ≠ 0x00#8)
include ha

theorem inv_raises_noLog (hta : s.tagged a = false) : Raises (.inv a) s .noLog := by
  rw [Raises, exec_inv, execInv, if_neg (by simp [htv]), if_neg ha, if_pos hta, raise]

theorem inv_answers_expAt (hta : s.tagged a = true) :
    Answers (.inv a) s (elementData (s.expAt (invIndex (s.logAt a)))) := by
  rw [Answers, exec_inv, execInv, if_neg (by simp [htv]), if_neg ha, if_neg (by simp [hta]), respond]

end

/-- Settles O25: the four cases are the outcomes of the tests of R95, in their order. -/
theorem invAlgorithm : Obligations.InvAlgorithm := by
  unfold Obligations.InvAlgorithm
  intro a s
  refine ⟨fun htv => inv_raises_noTables htv a, ?sentinel, fun htv => inv_raises_noLog htv,
    fun htv => inv_answers_expAt htv⟩
  case sentinel =>
    rintro htv rfl
    exact inv_answers_zero htv

/-! Inverses under `mulp` (R97). -/

theorem ne_zero_of_mulp_eq_one {a r : Element} (h : mulp a r = 0x01#8) : a ≠ 0x00#8 := by
  rintro rfl
  rw [mulp_zero_left] at h
  exact absurd h (by decide)

/-- The inverse of an element is unique. -/
theorem inverse_unique {a r r' : Element} (h : mulp a r = 0x01#8) (h' : mulp a r' = 0x01#8) : r = r' :=
  calc r = mulp (mulp a r') r := by rw [h', mulp_one_left]
    _ = mulp (mulp a r) r' := by rw [mulp_assoc, mulp_comm r' r, ← mulp_assoc]
    _ = r' := by rw [h, mulp_one_left]

/-- The exponents `log[a]` and `255 - log[a]` add to 255, where the powers return to 1 (R97). -/
theorem State.HoldsPowersOf.mulp_expAt_invIndex {g : Element} {u : State} (hu : u.HoldsPowersOf g)
    (hone : power g 255 = 0x01#8) {a : Element} (ha : u.tagged a = true) :
    mulp a (u.expAt (invIndex (u.logAt a))) = 0x01#8 := by
  have hlog : (u.logAt a).toNat ≤ 255 := Nat.le_of_lt_succ (u.logAt a).isLt
  have hexp : u.expAt (invIndex (u.logAt a)) = power g (255 - (u.logAt a).toNat) := hu.expAt_eq_power (Nat.sub_le _ _)
  calc mulp a (u.expAt (invIndex (u.logAt a)))
      = mulp (power g (u.logAt a).toNat) (power g (255 - (u.logAt a).toNat)) := by rw [hexp, hu.power_logAt hone ha]
    _ = power g 255 := by rw [← power_add, Nat.add_sub_cancel' hlog]
    _ = 0x01#8 := hone

section
variable {g : Element} {u : State} (hu : u.BuiltBy g) (hg : IsGenerator g)
include hu hg

theorem State.BuiltBy.mulp_expAt_invIndex {a : Element} (ha : a ≠ 0x00#8) :
    mulp a (u.expAt (invIndex (u.logAt a))) = 0x01#8 :=
  hu.holdsPowersOf.mulp_expAt_invIndex (power_groupOrder_of_isGenerator hg)
    (hu.holdsPowersOf.tagged_of_ne_zero hg ha)

/-- On the tables of a generator `INV` answers the inverse, whichever generator it is. -/
theorem State.BuiltBy.inv_answers_inverse {a r : Element} (h : mulp a r = 0x01#8) :
    Answers (.inv a) u (elementData r) := by
  have ha := ne_zero_of_mulp_eq_one h
  rw [inverse_unique h (hu.mulp_expAt_invIndex hg ha)]
  exact inv_answers_expAt hu.tv_eq ha (hu.holdsPowersOf.tagged_of_ne_zero hg ha)

end

/-- Settles O26: `INV` answers the one element whose product with its operand is 1, so every clause is an equation of
`mulp`. -/
theorem inverseLaw : Obligations.InverseLaw := by
  unfold Obligations.InverseLaw
  intro g u hg hu
  refine ⟨inv_answers_zero hu.tv_eq, hu.inv_answers_inverse hg (mulp_one_left _), fun a ha => ?_⟩
  have hinv := hu.mulp_expAt_invIndex hg ha
  refine ⟨_, hu.inv_answers_inverse hg hinv, hinv, ?mult, hu.inv_answers_inverse hg ((mulp_comm _ a).trans hinv),
    fun h v hh hv => hv.inv_answers_inverse hh hinv⟩
  case mult => exact hinv ▸ hu.mult_answers_mulp hg a _

end Sys2Proof.Machine

/-! PROOFS. The map `FINDGEN` collects, bit by bit (R103). -/

namespace Sys2Proof.Machine

theorem exec_findgen (s : State) : exec .findgen s = .next (s.present (.ok (generatorsUpTo 254))) := rfl

/-- A candidate of order 255 sets its own bit, any other candidate none. -/
theorem getLsbD_generatorsUpTo_succ {n : Nat} (hn : n < 254) (i : Nat) :
    (generatorsUpTo (n + 1)).getLsbD i = true ↔
      (generatorsUpTo n).getLsbD i = true ∨ (i = n + 2 ∧ ord (BitVec.ofNat 8 i) = some 255) := by
  have hbit : (BitVec.twoPow 256 (n + 2)).getLsbD i = true ↔ i = n + 2 := by
    rw [BitVec.getLsbD_twoPow, Bool.and_eq_true, decide_eq_true_eq, decide_eq_true_eq]
    omega
  rw [generatorsUpTo, Config.groupOrder]
  split
  case isTrue hgen =>
    rw [BitVec.getLsbD_or, Bool.or_eq_true, hbit]
    exact or_congr_right (iff_self_and.mpr fun hi => hi ▸ hgen)
  case isFalse hgen =>
    refine (or_iff_left ?_).symm
    rintro ⟨rfl, hord⟩
    exact hgen hord

/-- The map after the candidates 2 to `n + 1` holds just the generators among them. -/
theorem getLsbD_generatorsUpTo {n : Nat} (hn : n ≤ 254) (i : Nat) :
    (generatorsUpTo n).getLsbD i = true ↔ (2 ≤ i ∧ i ≤ n + 1) ∧ ord (BitVec.ofNat 8 i) = some 255 := by
  induction n with
  | zero =>
    refine iff_of_false (by simp [generatorsUpTo]) ?_
    rintro ⟨⟨hlow, hhigh⟩, -⟩
    omega
  | succ n ih =>
    have hrange : 2 ≤ i ∧ i ≤ n + 1 + 1 ↔ (2 ≤ i ∧ i ≤ n + 1) ∨ i = n + 2 := by omega
    rw [getLsbD_generatorsUpTo_succ hn, ih (by omega), hrange, or_and_right]

/-- Settles O29, by what each candidate adds to the map; the state takes no part in it. -/
theorem findgenAnswersGenerators : Obligations.FindgenAnswersGenerators := by
  unfold Obligations.FindgenAnswersGenerators
  refine ⟨generatorsUpTo 254, exec_findgen, fun g => ?_⟩
  rw [getLsbD_generatorsUpTo (le_refl _), BitVec.ofNat_toNat, BitVec.setWidth_eq]
  exact and_congr_left fun _ => and_iff_left (Nat.le_of_lt_succ g.isLt)

end Sys2Proof.Machine


/-! PROOFS. What a table-read word answers in every state (R109, R110). -/

namespace Sys2Proof.Machine

/-! A word whose command takes no second operand runs it when its `b` field is 0, and is illegal otherwise (R55). -/

section
variable {w : CmdWord} {b : Element} {i : Instr} (hw : decode w = ifZeroB b i) (s : State)
include hw

theorem runWord_of_zero_b (hb : b = 0x00#8) : runWord w s = exec i s := by
  rw [ifZeroB, if_pos hb] at hw
  rw [runWord, hw]

theorem runWord_of_nonzero_b (hb : b ≠ 0x00#8) : runWord w s = .next (s.present (.fault .illegal)) := by
  rw [ifZeroB, if_neg hb] at hw
  rw [runWord, hw, raise]

end

/-! `RDEXP`: its word, and an answer for each value of `TV` (R109). -/

theorem decode_rdexp_word (e b : Element) : decode (commandWord 0x06#8 e b) = ifZeroB b (.rdexp e) := by
  simp [decode]

theorem exec_rdexp (e : Element) (s : State) : exec (.rdexp e) s = execRdexp e s := rfl

theorem rdexp_raises_noTables {s : State} (htv : s.tv = false) (e : Element) : Raises (.rdexp e) s .noTables := by
  rw [Raises, exec_rdexp, execRdexp, if_pos htv, raise]

theorem rdexp_answers_expAt {s : State} (htv : s.tv = true) (e : Element) :
    Answers (.rdexp e) s (elementData (s.expAt e.toNat)) := by
  rw [Answers, exec_rdexp, execRdexp, if_neg (by simp [htv]), respond]

/-- Settles O32: the decoder tests the `b` field, then the command tests `TV` and no tag. -/
theorem rdexpReadsEntry : Obligations.RdexpReadsEntry := by
  unfold Obligations.RdexpReadsEntry
  intro e s
  exact ⟨runWord_of_zero_b (decode_rdexp_word e _) s rfl, fun b => runWord_of_nonzero_b (decode_rdexp_word e b) s,
    fun htv => rdexp_raises_noTables htv e, fun htv => rdexp_answers_expAt htv e⟩

/-! `RDLOG`: its word, and an answer for each outcome of its tests (R110). -/

theorem decode_rdlog_word (a b : Element) : decode (commandWord 0x07#8 a b) = ifZeroB b (.rdlog a) := by
  simp [decode]

theorem exec_rdlog (a : Element) (s : State) : exec (.rdlog a) s = execRdlog a s := rfl

theorem rdlog_raises_noTables {s : State} (htv : s.tv = false) (a : Element) : Raises (.rdlog a) s .noTables := by
  rw [Raises, exec_rdlog, execRdlog, if_pos htv, raise]

section
variable {s : State} (htv : s.tv = true) {a : Element}
include htv

theorem rdlog_raises_noLog (hta : s.tagged a = false) : Raises (.rdlog a) s .noLog := by
  rw [Raises, exec_rdlog, execRdlog, if_neg (by simp [htv]), if_pos hta, raise]

theorem rdlog_answers_logAt (hta : s.tagged a = true) : Answers (.rdlog a) s (elementData (s.logAt a)) := by
  rw [Answers, exec_rdlog, execRdlog, if_neg (by simp [htv]), if_neg (by simp [hta]), respond]

end

/-- Settles O33: the decoder tests the `b` field, then the command tests `TV` and the tag, in the order of R110. -/
theorem rdlogReadsEntry : Obligations.RdlogReadsEntry := by
  unfold Obligations.RdlogReadsEntry
  intro a s
  exact ⟨runWord_of_zero_b (decode_rdlog_word a _) s rfl, fun b => runWord_of_nonzero_b (decode_rdlog_word a b) s,
    fun htv => rdlog_raises_noTables htv a, fun htv => rdlog_raises_noLog htv, fun htv => rdlog_answers_logAt htv⟩

end Sys2Proof.Machine

/-! PROOFS. The outcome of the tests every command makes, in the order of R122, and which fault each raises (R117, R118,
R121). -/

namespace Sys2Proof.Machine

/-! A response says which fault it is, and a command has one response. -/

theorem Response.eq_fault_of_status {r : Response} {f : CoreFault} (h : r.status = (Response.fault f).status) :
    r = .fault f := by
  revert h
  cases r with
  | ok d => cases f <;> simp [Response.status]
  | fault f' => cases f' <;> cases f <;> simp [Response.status]

theorem response_unique {o : Outcome} {s s' : State} {r r' : Response} (h : o = .next (s.present r))
    (h' : o = .next (s'.present r')) : r = r' := by
  injection h.symm.trans h' with hstate
  exact Port.responding.inj (congrArg State.port hstate)

/-! The tests after decoding, for all commands at once (R122). -/

section
variable {i : Instr} {s : State}

theorem raises_noTables_of_usesTables (htv : s.tv = false) (hi : usesTables i = true) : Raises i s .noTables := by
  cases i with
  | mult a b => exact mult_raises_noTables htv a b
  | inv a => exact inv_raises_noTables htv a
  | rdexp e => exact rdexp_raises_noTables htv e
  | rdlog a => exact rdlog_raises_noTables htv a
  | mulp | build | findgen => exact absurd hi Bool.false_ne_true

theorem answers_zero_of_zeroShortcut (htv : s.tv = true) (hzero : zeroShortcut i = true) : Answers i s 0#256 := by
  cases i with
  | mult a b => exact mult_answers_zero htv (by simpa [zeroShortcut] using hzero)
  | inv a =>
    obtain rfl : a = 0x00#8 := by simpa [zeroShortcut] using hzero
    exact inv_answers_zero htv
  | mulp | build | findgen | rdexp | rdlog => exact absurd hzero Bool.false_ne_true

theorem raises_noLog_of_missingLog (htv : s.tv = true) (hzero : zeroShortcut i = false)
    (hlog : missingLog s i = true) : Raises i s .noLog := by
  cases i with
  | mult a b =>
    obtain ⟨ha, hb⟩ : a ≠ 0x00#8 ∧ b ≠ 0x00#8 := by simpa [zeroShortcut] using hzero
    exact mult_raises_noLog htv ha hb (by simpa [missingLog] using hlog)
  | inv a => exact inv_raises_noLog htv (by simpa [zeroShortcut] using hzero) (by simpa [missingLog] using hlog)
  | rdlog a => exact rdlog_raises_noLog htv (by simpa [missingLog] using hlog)
  | mulp | build | findgen | rdexp => exact absurd hlog Bool.false_ne_true

/-- A nonzero operand with its tag, or a command without operand tests, is answered from the tables. -/
theorem answers_of_tagged (htv : s.tv = true) (hi : usesTables i = true) (hzero : zeroShortcut i = false)
    (hlog : missingLog s i = false) : ∃ d, Answers i s d := by
  cases i with
  | mult a b =>
    obtain ⟨ha, hb⟩ : a ≠ 0x00#8 ∧ b ≠ 0x00#8 := by simpa [zeroShortcut] using hzero
    obtain ⟨hta, htb⟩ : s.tagged a = true ∧ s.tagged b = true := by simpa [missingLog] using hlog
    exact ⟨_, mult_answers_expAt htv ha hb hta htb⟩
  | inv a =>
    exact ⟨_, inv_answers_expAt htv (by simpa [zeroShortcut] using hzero) (by simpa [missingLog] using hlog)⟩
  | rdexp e => exact ⟨_, rdexp_answers_expAt htv e⟩
  | rdlog a => exact ⟨_, rdlog_answers_logAt htv (by simpa [missingLog] using hlog)⟩
  | mulp | build | findgen => exact absurd hi Bool.false_ne_true

/-- A table command writes nothing (R26). -/
theorem State.afterWrites_of_usesTables (hi : usesTables i = true) : s.afterWrites i = s := by
  cases i with
  | build g => exact absurd hi Bool.false_ne_true
  | mulp | mult | inv | findgen | rdexp | rdlog => rfl

/-- A command that reads no table makes no test. -/
theorem ok_of_not_usesTables (hi : usesTables i = false) :
    ∃ d, exec i s = .next ((s.afterWrites i).present (.ok d)) := by
  cases i with
  | mulp a b => exact ⟨_, mulp_answers a b s⟩
  | build g => exact ⟨_, exec_build g s⟩
  | findgen => exact ⟨_, exec_findgen s⟩
  | mult | inv | rdexp | rdlog => exact absurd hi.symm Bool.false_ne_true

/-- A command that passes every test answers `OK`. -/
theorem ok_of_tests_passed
    (h : usesTables i = true → s.tv = true ∧ (zeroShortcut i = true ∨ missingLog s i = false)) :
    ∃ d, exec i s = .next ((s.afterWrites i).present (.ok d)) := by
  cases hi : usesTables i with
  | false => exact ok_of_not_usesTables hi
  | true =>
    obtain ⟨htv, hpass⟩ := h hi
    rw [State.afterWrites_of_usesTables hi]
    cases hzero : zeroShortcut i with
    | true => exact ⟨_, answers_zero_of_zeroShortcut htv hzero⟩
    | false => exact answers_of_tagged htv hi hzero (hpass.resolve_left (by simp [hzero]))

end

/-- Everything the tests can decide: the fault of the first one that fails, or `OK`. -/
theorem exec_faults_or_ok (i : Instr) (s : State) :
    ((s.tv = false ∧ usesTables i = true) ∧ Raises i s .noTables) ∨
      ((s.tv = true ∧ zeroShortcut i = false ∧ missingLog s i = true) ∧ Raises i s .noLog) ∨
      ∃ d, exec i s = .next ((s.afterWrites i).present (.ok d)) := by
  by_cases hpass : usesTables i = true → s.tv = true ∧ (zeroShortcut i = true ∨ missingLog s i = false)
  · exact .inr (.inr (ok_of_tests_passed hpass))
  · obtain ⟨hi, hfail⟩ := Classical.not_imp.mp hpass
    cases htv : s.tv with
    | false => exact .inl ⟨⟨rfl, hi⟩, raises_noTables_of_usesTables htv hi⟩
    | true =>
      obtain ⟨hzero, hlog⟩ : zeroShortcut i = false ∧ missingLog s i = true := by simpa [htv] using hfail
      exact .inr (.inl ⟨⟨rfl, hzero, hlog⟩, raises_noLog_of_missingLog htv hzero hlog⟩)

/-! Each fault by its cause, and what comes with a fault response (R117, R118, R121). -/

section
variable {i : Instr} {s t : State}

theorem raises_noTables_iff : Raises i s .noTables ↔ s.tv = false ∧ usesTables i = true := by
  refine ⟨fun h => ?_, fun ⟨htv, hi⟩ => raises_noTables_of_usesTables htv hi⟩
  obtain ⟨hcause, -⟩ | ⟨-, h'⟩ | ⟨d, h'⟩ := exec_faults_or_ok i s
  · exact hcause
  all_goals cases response_unique h h'

theorem raises_noLog_iff :
    Raises i s .noLog ↔ s.tv = true ∧ zeroShortcut i = false ∧ missingLog s i = true := by
  refine ⟨fun h => ?_, fun ⟨htv, hzero, hlog⟩ => raises_noLog_of_missingLog htv hzero hlog⟩
  obtain ⟨-, h'⟩ | ⟨hcause, -⟩ | ⟨d, h'⟩ := exec_faults_or_ok i s
  · cases response_unique h h'
  · exact hcause
  · cases response_unique h h'

/-- A command whose response is a fault has written nothing. -/
theorem raises_of_exec_fault {u : State} {f : CoreFault} (h : exec i s = .next (u.present (.fault f))) :
    Raises i s f := by
  obtain ⟨-, h'⟩ | ⟨-, h'⟩ | ⟨d, h'⟩ := exec_faults_or_ok i s <;> cases response_unique h h'
  · exact h'
  · exact h'

theorem raises_of_rspStatus {f : CoreFault} (h : exec i s = .next t)
    (hstatus : t.rspStatus = some (Response.fault f).status) : Raises i s f ∧ t.rspData = some 0#256 := by
  obtain ⟨r, hr⟩ := exec_answers i s
  obtain rfl : (s.afterWrites i).present r = t := Host.Outcome.next.inj (hr.symm.trans h)
  obtain rfl := Response.eq_fault_of_status (Option.some.inj hstatus)
  exact ⟨raises_of_exec_fault hr, rfl⟩

theorem runWord_of_decode {w : CmdWord} (h : decode w = .ok i) (s : State) : runWord w s = exec i s := by
  rw [runWord, h]

/-- A word whose response is a fault has changed the response port only (R121). -/
theorem eq_present_of_runWord_fault {w : CmdWord} {f : CoreFault} (h : runWord w s = .next t)
    (hf : t.pending = some (.fault f)) : t = s.present (.fault f) := by
  obtain ⟨i, r, hi, hrun⟩ | ⟨-, hrun⟩ := runWord_answers w s
  · obtain rfl := Host.Outcome.next.inj (hrun.symm.trans h)
    obtain rfl := Option.some.inj hf
    rw [runWord_of_decode hi] at hrun
    exact Host.Outcome.next.inj (hrun.symm.trans (raises_of_exec_fault hrun))
  · obtain rfl := Host.Outcome.next.inj (hrun.symm.trans h)
    rw [← Option.some.inj hf]

end

/-- Settles O37: the test of `TV` is the first after decoding, and only the table commands make it. -/
theorem noTablesExactly : Obligations.NoTablesExactly := by
  unfold Obligations.NoTablesExactly
  exact fun i s => ⟨raises_noTables_iff, fun t h hstatus => raises_of_rspStatus h hstatus⟩

/-! `E_NOLOG` on a pair that a `BUILD` left (R118). -/

section
variable {g : Element} {u : State} (hu : u.BuiltBy g)
include hu

/-- The elements without a logarithm are 0 and the gaps. -/
theorem State.BuiltBy.tagged_eq_false_iff (v : Element) : u.tagged v = false ↔ v = 0x00#8 ∨ u.Gap v := by
  by_cases hv : v = 0x00#8
  · exact iff_of_true (hv ▸ hu.tagged_zero) (.inl hv)
  · rw [← Bool.not_eq_true, hu.holdsPowersOf.tag v hv, State.Gap]
    simp [hv]

/-- A generator leaves no gap (R82). -/
theorem State.BuiltBy.not_gap (hg : IsGenerator g) (v : Element) : ¬ u.Gap v := fun hgap => by
  have htag := hu.holdsPowersOf.tagged_of_ne_zero hg hgap.1
  rw [(hu.tagged_eq_false_iff v).mpr (.inr hgap)] at htag
  exact Bool.false_ne_true htag

theorem State.BuiltBy.mult_raises_noLog_iff (a b : Element) :
    Raises (.mult a b) u .noLog ↔ a ≠ 0x00#8 ∧ b ≠ 0x00#8 ∧ (u.Gap a ∨ u.Gap b) := by
  rw [raises_noLog_iff, and_iff_right hu.tv_eq]
  simp only [zeroShortcut, missingLog, Bool.or_eq_false_iff, beq_eq_false_iff_ne, Bool.or_eq_true, Bool.not_eq_true',
    hu.tagged_eq_false_iff, and_assoc]
  refine and_congr_right fun ha => and_congr_right fun hb => ?_
  rw [or_iff_right ha, or_iff_right hb]

theorem State.BuiltBy.inv_raises_noLog_iff (a : Element) : Raises (.inv a) u .noLog ↔ u.Gap a := by
  rw [raises_noLog_iff, and_iff_right hu.tv_eq]
  simp only [zeroShortcut, missingLog, beq_eq_false_iff_ne, Bool.not_eq_true', hu.tagged_eq_false_iff]
  exact ⟨fun ⟨ha, h⟩ => h.resolve_left ha, fun h => ⟨h.1, .inr h⟩⟩

theorem State.BuiltBy.rdlog_raises_noLog_iff (a : Element) :
    Raises (.rdlog a) u .noLog ↔ a = 0x00#8 ∨ u.Gap a := by
  rw [raises_noLog_iff, and_iff_right hu.tv_eq]
  simp only [zeroShortcut, missingLog, Bool.not_eq_true', hu.tagged_eq_false_iff, true_and]

/-- The cases of R118. -/
theorem State.BuiltBy.raises_noLog_iff_listed (i : Instr) :
    Raises i u .noLog ↔
      i = .rdlog 0x00#8 ∨
      ∃ v, u.Gap v ∧ (i = .rdlog v ∨ i = .inv v ∨ ∃ w, w ≠ 0x00#8 ∧ (i = .mult v w ∨ i = .mult w v)) := by
  cases i with
  | mult a b =>
    rw [hu.mult_raises_noLog_iff]
    constructor
    · rintro ⟨ha, hb, hgap | hgap⟩
      · exact .inr ⟨a, hgap, .inr (.inr ⟨b, hb, .inl rfl⟩)⟩
      · exact .inr ⟨b, hgap, .inr (.inr ⟨a, ha, .inr rfl⟩)⟩
    · rintro (h | ⟨v, hgap, h | h | ⟨w, hw, h | h⟩⟩) <;> cases h
      · exact ⟨hgap.1, hw, .inl hgap⟩
      · exact ⟨hw, hgap.1, .inr hgap⟩
  | inv a => simp [hu.inv_raises_noLog_iff]
  | rdlog a => simp [hu.rdlog_raises_noLog_iff]
  | mulp | build | findgen | rdexp => simp [raises_noLog_iff, missingLog]

end

/-- Settles O38: on a pair that exists only a missing tag faults, and the elements without a tag are 0 and the gaps. -/
theorem noLogExactly : Obligations.NoLogExactly := by
  unfold Obligations.NoLogExactly
  intro g u hu i
  refine ⟨hu.raises_noLog_iff_listed i, fun hg => ?generator, fun t h hstatus => raises_of_rspStatus h hstatus⟩
  case generator =>
    rw [hu.raises_noLog_iff_listed]
    refine or_iff_left ?_
    rintro ⟨v, hgap, -⟩
    exact hu.not_gap hg v hgap

/-- Settles O39: a response that is not `OK` is a fault, and every fault is presented in the state before the word. -/
theorem faultsChangeNothing : Obligations.FaultsChangeNothing := by
  unfold Obligations.FaultsChangeNothing
  refine ⟨fun w s t r h hr hstatus => ?word, fun g s t h => ?build⟩
  case word =>
    cases r with
    | ok d => exact absurd rfl hstatus
    | fault f =>
      obtain rfl := eq_present_of_runWord_fault h hr
      exact ⟨rfl, ⟨rfl, rfl, rfl, rfl⟩, rfl⟩
  case build =>
    obtain rfl := respond_next h
    rfl

/-- Settles O40: each clause is the outcome of one test, and the tests are made in the order of the clauses. -/
theorem faultPriority : Obligations.FaultPriority := by
  unfold Obligations.FaultPriority
  refine fun w s => ⟨fun hw => runWord_of_illegal hw s, fun i hi => ?_⟩
  rw [runWord_of_decode hi]
  refine ⟨fun huses htv => raises_noTables_of_usesTables htv huses, answers_zero_of_zeroShortcut,
    raises_noLog_of_missingLog, fun hpass => ?_⟩
  obtain ⟨d, hd⟩ := ok_of_tests_passed hpass
  exact ⟨_, d, hd, rfl⟩

end Sys2Proof.Machine

/-! PROOFS. What ends `TV` = 1: no command and no edge out of reset, so a reset edge only (R135). -/

namespace Sys2Proof.Machine

@[simp] theorem buildTables_tv (g : Element) (s : State) : (buildTables g s).tv = true := State.setTv_tv _ _

theorem State.present_sameTables (s : State) (r : Response) : (s.present r).SameTables s := ⟨rfl, rfl, rfl, rfl⟩

/-- `BUILD` is the only command that writes (R26). -/
theorem State.afterWrites_eq_or_build (s : State) (i : Instr) : s.afterWrites i = s ∨ ∃ g, i = .build g := by
  cases i with
  | build g => exact .inr ⟨g, rfl⟩
  | mulp | mult | inv | findgen | rdexp | rdlog => exact .inl rfl

section
variable {s t : State} (htv : s.tv = true)
include htv

/-- `BUILD` clears `TV` only to set it again when its pair is complete (R76). -/
theorem State.afterWrites_tv (i : Instr) : (s.afterWrites i).tv = true := by
  obtain heq | ⟨g, rfl⟩ := s.afterWrites_eq_or_build i
  · rw [heq, htv]
  · exact buildTables_tv g s

theorem exec_keeps_tv {i : Instr} (h : exec i s = .next t) : t.tv = true := by
  obtain ⟨r, hr⟩ := exec_answers i s
  obtain rfl := Host.Outcome.next.inj (hr.symm.trans h)
  exact State.afterWrites_tv htv i

theorem runWord_keeps_tv {w : CmdWord} (h : runWord w s = .next t) : t.tv = true := by
  obtain ⟨i, r, hi, -⟩ | ⟨-, hrun⟩ := runWord_answers w s
  · exact exec_keeps_tv htv ((runWord_of_decode hi s).symm.trans h)
  · obtain rfl := Host.Outcome.next.inj (hrun.symm.trans h)
    exact htv

/-- The handshake touches no table state, and a word that is accepted keeps the pair's validity. -/
theorem edge_keeps_tv {p : Pins} (hrst : p.rst = false) (h : edge p s = .next t) : t.tv = true := by
  obtain ⟨hreset, -⟩ | ⟨-, -, ⟨-, rfl⟩ | ⟨r, -, -, rfl⟩ | ⟨r, -, -, rfl⟩ | ⟨-, -, rfl⟩ | ⟨w, -, -, hrun⟩⟩ :=
    edge_cases h
  · exact absurd (hrst.symm.trans hreset) Bool.false_ne_true
  · exact htv
  · exact htv
  · exact htv
  · exact htv
  · exact runWord_keeps_tv (s := s.accept w) htv hrun

end

/-- A command other than `BUILD` leaves the whole table state as it was (R26). -/
theorem exec_sameTables_or_build {i : Instr} {s t : State} (h : exec i s = .next t) :
    t.SameTables s ∨ ∃ g, i = .build g := by
  obtain ⟨r, hr⟩ := exec_answers i s
  obtain rfl := Host.Outcome.next.inj (hr.symm.trans h)
  refine (s.afterWrites_eq_or_build i).imp_left fun heq => ?_
  rw [heq]
  exact s.present_sameTables r

/-- Settles O46: a step that is no edge of the script changes nothing, and an edge with `rst` = 0 keeps `TV` = 1. -/
theorem onlyResetDropsTables : Obligations.OnlyResetDropsTables := by
  unfold Obligations.OnlyResetDropsTables
  refine ⟨fun s t htv h hdrop => ?step, fun i s t htv h => ⟨exec_keeps_tv htv h, exec_sameTables_or_build h⟩⟩
  case step =>
    obtain ⟨-, rfl⟩ | ⟨p, ps, hscript, hedge⟩ := step_cases h
    · exact absurd (hdrop.symm.trans htv) Bool.false_ne_true
    · refine ⟨p, ps, hscript, ?_⟩
      by_contra hrst
      have hkept := edge_keeps_tv (s := s.withScript ps) htv (Bool.eq_false_iff.mpr hrst) hedge
      exact Bool.false_ne_true (hdrop.symm.trans hkept)

end Sys2Proof.Machine

/-! PROOFS. Decoder and encoder are inverse to each other on the commands and the legal words (R54, R61). -/

namespace Sys2Proof.Machine

/-- Settles O1, one encoding at a time: its three fields lead the decoder back to the command. -/
theorem decodeInvertsEncode : Obligations.DecodeInvertsEncode := by
  unfold Obligations.DecodeInvertsEncode
  intro i
  cases i with
  | mulp | mult => simp [encode, decode]
  | build | inv | findgen | rdexp | rdlog => simp [encode, decode, ifZeroB]

/-- A word that decodes has the fields of its command's encoding (R61). -/
theorem encode_eq_of_decode {w : CmdWord} {i : Instr} (h : decode w = .ok i) : encode i = w := by
  rw [word_eq_iff_fields]
  simp only [decode, ifZeroB] at h
  split_ifs at h <;> cases h
  all_goals simp [encode, *]

/-- A word that matches a row of R54 decodes. -/
theorem exists_decode_of_spells {w : CmdWord} {m : Mnemonic} (h : m.pattern.spells w = true) :
    ∃ i, decode w = .ok i := by
  obtain ⟨hop, ha, hb⟩ := (m.spells_iff w).mp h
  cases m with
  | mulp | mult => simp [decode, hop, Mnemonic.opcode]
  | build | inv | rdexp | rdlog =>
    have hb0 : bField w = 0x00#8 := Finset.mem_singleton.mp hb
    simp [decode, ifZeroB, hop, Mnemonic.opcode, hb0]
  | findgen =>
    have ha0 : aField w = 0x00#8 := Finset.mem_singleton.mp ha
    have hb0 : bField w = 0x00#8 := Finset.mem_singleton.mp hb
    simp [decode, ifZeroB, hop, Mnemonic.opcode, ha0, hb0]

/-- Settles O2: a word is its three fields, and the tests of the decoder are those of the rows of R54. -/
theorem encodeInvertsDecode : Obligations.EncodeInvertsDecode := by
  unfold Obligations.EncodeInvertsDecode
  refine ⟨fun w i => encode_eq_of_decode, fun w => ?_⟩
  rw [legalWord_iff_spells]
  exact ⟨fun ⟨i, hi⟩ => ⟨i.mnemonic, spells_of_decode hi⟩, fun ⟨_, hm⟩ => exists_decode_of_spells hm⟩

/-- Settles O3: the rows of R54 have different opcodes. -/
theorem patternsDisjoint : Obligations.PatternsDisjoint := by
  unfold Obligations.PatternsDisjoint
  intro w m n hm hn
  obtain ⟨hopm, -⟩ := (m.spells_iff w).mp hm
  obtain ⟨hopn, -⟩ := (n.spells_iff w).mp hn
  exact Mnemonic.opcode_injective (hopm.symm.trans hopn)

/-- Settles O5: each word is the encoding of its command. -/
theorem exampleWordsDecode : Obligations.ExampleWordsDecode := by
  unfold Obligations.ExampleWordsDecode
  exact ⟨decodeInvertsEncode (.mulp 0x83#8 0x57#8), decodeInvertsEncode (.build 0x03#8),
    decodeInvertsEncode (.mult 0x83#8 0x57#8), decodeInvertsEncode (.inv 0x02#8), decodeInvertsEncode .findgen,
    decodeInvertsEncode (.rdexp 0x02#8), decodeInvertsEncode (.rdlog 0x01#8)⟩

/-- Settles O36, by the two cases of a response and the three faults. -/
theorem statusCodes : Obligations.StatusCodes := by
  unfold Obligations.StatusCodes
  refine ⟨fun r => ?kind, fun c => ?used⟩
  case kind =>
    cases r with
    | ok d => simp [Response.status]
    | fault f => cases f <;> simp [Response.status, Response.data]
  case used =>
    have hcode : c = 0#2 ∨ c = 1#2 ∨ c = 2#2 ∨ c = 3#2 := by
      revert c
      decide
    obtain rfl | rfl | rfl | rfl := hcode
    · exact ⟨.ok 0#256, rfl⟩
    · exact ⟨.fault .illegal, rfl⟩
    · exact ⟨.fault .noTables, rfl⟩
    · exact ⟨.fault .noLog, rfl⟩

end Sys2Proof.Machine

/-! PROOFS. What a command, a word and a step leave of the state: the frame of every command, and the three things a
step can do to the table pair (R26, R76, R134). -/

namespace Sys2Proof.Machine

/-! The frame of a command. -/

/-- Settles O43: of the commands only `BUILD` presents its response in a state it wrote. -/
theorem onlyBuildWrites : Obligations.OnlyBuildWrites := by
  unfold Obligations.OnlyBuildWrites
  intro i s t h hi
  obtain ⟨r, hr⟩ := exec_answers i s
  obtain rfl := Host.Outcome.next.inj (hr.symm.trans h)
  obtain heq | ⟨g, hg⟩ := s.afterWrites_eq_or_build i
  · exact ⟨r, by rw [heq]; rfl⟩
  · exact absurd hg (hi g)

/-- The loop of `BUILD` writes no entry of `EXP` beyond its count (R77). -/
theorem buildUpTo_expAt_of_lt (g : Element) (s : State) {n j : Nat} (h : n < j) :
    (buildUpTo g s n).expAt j = s.expAt j := by
  induction n with
  | zero => rw [buildUpTo, buildStart_expAt, if_neg h.ne']
  | succ n ih => rw [buildUpTo, buildIteration_expAt, if_neg h.ne', ih (by omega)]

/-- The loop of `BUILD` writes the logarithms of the elements it tags only (R76). -/
theorem buildUpTo_logAt_of_not_tagged (g : Element) (s : State) (n : Nat) {v : Element}
    (h : (buildUpTo g s n).tagged v = false) : (buildUpTo g s n).logAt v = s.logAt v := by
  induction n with
  | zero => exact buildStart_logAt s v
  | succ n ih =>
    rw [buildUpTo_succ, buildLogEntry_tagged, State.setExp_tagged, Bool.or_eq_false_iff] at h
    obtain ⟨hnew, hold⟩ := h
    rw [buildUpTo_succ, buildLogEntry_logAt, if_neg (by rintro ⟨rfl, hv⟩; simp [hv] at hnew), State.setExp_logAt,
      ih hold]

/-- Settles O16, by the frame of each iteration: one entry of `EXP`, and the logarithm of the element it tags. -/
theorem buildFrame : Obligations.BuildFrame := by
  unfold Obligations.BuildFrame
  intro g s t h
  obtain rfl := respond_next h
  obtain ⟨-, hscript, hoffered, haccepted, hreceived, hresets⟩ := buildTables_outside g s
  refine ⟨hscript, hoffered, haccepted, hreceived, hresets, fun i hi => ?exp, fun v hv => ?log⟩
  case exp => exact (buildTables_expAt g s i).trans (buildUpTo_expAt_of_lt g s hi)
  case log =>
    rw [State.present_tagged, buildTables_tagged] at hv
    exact (buildTables_logAt g s v).trans (buildUpTo_logAt_of_not_tagged g s 255 hv)

/-! What an accepted word does to the state (R49, R50). -/

/-- What a command writes is the table pair only. -/
theorem State.afterWrites_outside (s : State) (i : Instr) : s.SameOutside (s.afterWrites i) := by
  obtain heq | ⟨g, rfl⟩ := s.afterWrites_eq_or_build i
  · rw [heq]
    exact ⟨rfl, rfl, rfl, rfl, rfl, rfl⟩
  · exact buildTables_outside g s

/-- Every accepted word is answered, and presents its response in a state that differs in the table pair at most: the
old pair, or that of a `BUILD`. -/
theorem runWord_presents (w : CmdWord) (s : State) :
    ∃ u r, runWord w s = .next (u.present r) ∧ s.SameOutside u ∧ (u = s ∨ ∃ g, u = buildTables g s) := by
  obtain ⟨i, r, -, hrun⟩ | ⟨-, hrun⟩ := runWord_answers w s
  · refine ⟨_, r, hrun, s.afterWrites_outside i, (s.afterWrites_eq_or_build i).imp_right ?_⟩
    rintro ⟨g, rfl⟩
    exact ⟨g, rfl⟩
  · exact ⟨s, _, hrun, ⟨rfl, rfl, rfl, rfl, rfl, rfl⟩, .inl rfl⟩

/-! What a step does to the table pair. -/

theorem State.SameTables.refl (s : State) : s.SameTables s := ⟨rfl, rfl, rfl, rfl⟩

theorem State.SameTables.symm {s t : State} (h : s.SameTables t) : t.SameTables s :=
  ⟨h.tv.symm, h.exp.symm, h.log.symm, h.logv.symm⟩

theorem State.SameTables.trans {s t u : State} (h : s.SameTables t) (h' : t.SameTables u) : s.SameTables u :=
  ⟨h.tv.trans h'.tv, h.exp.trans h'.exp, h.log.trans h'.log, h.logv.trans h'.logv⟩

/-- Everything a step can do to the table pair: leave it, forget it at a reset edge, or build it anew. -/
theorem step_tables {s t : State} (h : step s = .next t) :
    s.SameTables t ∨ s.takeReset.SameTables t ∨ ∃ g u, s.SameTables u ∧ (buildTables g u).SameTables t := by
  obtain ⟨-, rfl⟩ | ⟨p, ps, -, hedge⟩ := step_cases h
  · exact .inl (State.SameTables.refl t)
  · obtain ⟨-, rfl⟩ | ⟨-, -, ⟨-, rfl⟩ | ⟨r, -, -, rfl⟩ | ⟨r, -, -, rfl⟩ | ⟨-, -, rfl⟩ | ⟨w, -, -, hrun⟩⟩ :=
      edge_cases hedge
    · exact .inr (.inl ⟨rfl, rfl, rfl, rfl⟩)
    · exact .inl ⟨rfl, rfl, rfl, rfl⟩
    · exact .inl ⟨rfl, rfl, rfl, rfl⟩
    · exact .inl ⟨rfl, rfl, rfl, rfl⟩
    · exact .inl ⟨rfl, rfl, rfl, rfl⟩
    · obtain ⟨u, r, hnext, -, rfl | ⟨g, rfl⟩⟩ := runWord_presents w ((s.withScript ps).accept w)
      · obtain rfl := Host.Outcome.next.inj (hnext.symm.trans hrun)
        exact .inl ⟨rfl, rfl, rfl, rfl⟩
      · obtain rfl := Host.Outcome.next.inj (hnext.symm.trans hrun)
        exact .inr (.inr ⟨g, (s.withScript ps).accept w, ⟨rfl, rfl, rfl, rfl⟩, (State.present_sameTables _ r).symm⟩)

/-! The invariants of the table pair (R23, R24, R33). -/

theorem State.TableInvariant.of_sameTables {s t : State} (hs : s.TableInvariant) (h : s.SameTables t) :
    t.TableInvariant where
  tag_zero := h.tagged_eq _ ▸ hs.tag_zero
  built htv := by
    obtain ⟨g, hg⟩ := hs.built (h.tv ▸ htv)
    exact ⟨g, hg.of_sameTables h⟩

theorem buildTables_tableInvariant (g : Element) (s : State) : (buildTables g s).TableInvariant where
  tag_zero := buildTables_tagged_zero g s
  built _ := ⟨g, buildTables_holdsPowersOf g s⟩

/-- A state without a pair and without tags meets R24. -/
theorem tableInvariant_of_no_pair {s : State} (htv : s.tv = false) (hlogv : s.logv = 0#256) : s.TableInvariant where
  tag_zero := by rw [State.tagged, hlogv, BitVec.getLsbD_zero]
  built h := absurd (htv.symm.trans h) Bool.false_ne_true

/-- Settles O47: at reset there is no pair and no tag. -/
theorem tableInvariantAtReset : Obligations.TableInvariantAtReset := tableInvariant_of_no_pair rfl rfl

/-- Settles O48, by what a step can do to the pair: a kept pair keeps R24, a reset edge leaves no pair, and the pair of
`BUILD` is that of its operand. -/
theorem tableInvariantKept : Obligations.TableInvariantKept := by
  unfold Obligations.TableInvariantKept
  intro s t hs h
  obtain hkept | hreset | ⟨g, u, -, hbuild⟩ := step_tables h
  · exact hs.of_sameTables hkept
  · exact (tableInvariant_of_no_pair s.takeReset_tv s.takeReset_logv).of_sameTables hreset
  · exact (buildTables_tableInvariant g u).of_sameTables hbuild

theorem builtBy_of_buildTables {g : Element} {s t : State} (h : (buildTables g s).SameTables t) : t.BuiltBy g :=
  ⟨s, _, exec_build g s, h.symm.trans (State.present_sameTables _ _).symm⟩

theorem State.BuiltBy.of_sameTables {s t : State} {g : Element} (hs : s.BuiltBy g) (h : s.SameTables t) :
    t.BuiltBy g := by
  obtain ⟨v, u, hexec, hu⟩ := hs
  exact ⟨v, u, hexec, h.symm.trans hu⟩

/-- Settles O49: a step with `TV` = 1 after it kept the pair of the earlier `BUILD` or is one. -/
theorem tablesComeFromBuild : Obligations.TablesComeFromBuild := by
  unfold Obligations.TablesComeFromBuild
  refine ⟨nofun, fun s t hs h htv => ?_⟩
  obtain hkept | hreset | ⟨g, u, -, hbuild⟩ := step_tables h
  · obtain ⟨g, hg⟩ := hs (hkept.tv.trans htv)
    exact ⟨g, hg.of_sameTables hkept⟩
  · exact absurd (hreset.tv.trans htv) Bool.false_ne_true
  · exact ⟨g, builtBy_of_buildTables hbuild⟩

theorem State.MemoryInvariant.of_sameTables {s t : State} (hs : s.MemoryInvariant) (h : s.SameTables t) :
    t.MemoryInvariant :=
  ⟨h.exp ▸ hs.exp, h.log ▸ hs.log⟩

/-- Settles O50: at reset nothing is listed. -/
theorem memoryInvariantAtReset : Obligations.MemoryInvariantAtReset := ⟨rfl, rfl⟩

/-- Settles O51: the writes of `BUILD` and the fill of a reset edge keep the canonical form, which fixes the list by
what it reads as. -/
theorem memoryInvariantKept : Obligations.MemoryInvariantKept := by
  unfold Obligations.MemoryInvariantKept
  refine ⟨fun s t hs h => ?kept, fun s t hs ht => Memory.eq_of_read hs.exp ht.exp⟩
  case kept =>
    obtain hkept | hreset | ⟨g, u, hsu, hbuild⟩ := step_tables h
    · exact hs.of_sameTables hkept
    · obtain ⟨hexp, hlog⟩ := takeReset_wf s
      exact State.MemoryInvariant.of_sameTables ⟨hexp, hlog⟩ hreset
    · have hu := hs.of_sameTables hsu
      obtain ⟨hexp, hlog⟩ := buildTables_wf g hu.exp hu.log
      exact State.MemoryInvariant.of_sameTables ⟨hexp, hlog⟩ hbuild

end Sys2Proof.Machine

/-! PROOFS. The unspecified bytes and the port cannot be observed: states that agree on what can be read answer alike
(R32, R79, R124). -/

namespace Sys2Proof.Machine

section
variable {s t : State} (h : s.TablesAgree t)
include h

theorem State.TablesAgree.present (r : Response) : (s.present r).TablesAgree (t.present r) :=
  ⟨h.tv, h.exp, h.logv, h.log⟩

theorem State.TablesAgree.tagged_eq (htv : s.tv = true) (v : Element) : s.tagged v = t.tagged v := by
  rw [State.tagged, State.tagged, h.logv htv]

/-- A tagged operand leads `MULT` to the same entry of `EXP` in both states. -/
theorem State.TablesAgree.expAt_multIndex (htv : s.tv = true) {a b : Element} (ha : s.tagged a = true)
    (hb : s.tagged b = true) :
    s.expAt (multIndex (s.logAt a) (s.logAt b)) = t.expAt (multIndex (t.logAt a) (t.logAt b)) := by
  rw [← h.log htv a ha, ← h.log htv b hb]
  exact h.exp htv _ ((Nat.mod_lt _ (by decide)).trans (by decide : Config.groupOrder < 256))

theorem State.TablesAgree.expAt_invIndex (htv : s.tv = true) {a : Element} (ha : s.tagged a = true) :
    s.expAt (invIndex (s.logAt a)) = t.expAt (invIndex (t.logAt a)) := by
  rw [← h.log htv a ha]
  exact h.exp htv _ ((Nat.sub_le _ _).trans_lt (by decide : Config.groupOrder < 256))

/-- A table command has the same answer in both states. -/
theorem State.TablesAgree.table_command_answers {i : Instr} (hi : usesTables i = true) :
    ∃ r, exec i s = .next (s.present r) ∧ exec i t = .next (t.present r) := by
  cases htv : s.tv with
  | false =>
    exact ⟨_, raises_noTables_of_usesTables htv hi, raises_noTables_of_usesTables (h.tv ▸ htv) hi⟩
  | true =>
    have htv' : t.tv = true := h.tv ▸ htv
    cases hzero : zeroShortcut i with
    | true => exact ⟨_, answers_zero_of_zeroShortcut htv hzero, answers_zero_of_zeroShortcut htv' hzero⟩
    | false =>
      have hlog' : missingLog t i = missingLog s i := by
        cases i <;> simp only [missingLog, h.tagged_eq htv]
      cases hlog : missingLog s i with
      | true =>
        exact ⟨_, raises_noLog_of_missingLog htv hzero hlog,
          raises_noLog_of_missingLog htv' hzero (hlog'.trans hlog)⟩
      | false =>
        cases i with
        | mult a b =>
          obtain ⟨ha, hb⟩ : a ≠ 0x00#8 ∧ b ≠ 0x00#8 := by simpa [zeroShortcut] using hzero
          obtain ⟨hta, htb⟩ : s.tagged a = true ∧ s.tagged b = true := by simpa [missingLog] using hlog
          refine ⟨_, mult_answers_expAt htv ha hb hta htb, ?_⟩
          rw [h.expAt_multIndex htv hta htb]
          exact mult_answers_expAt htv' ha hb (h.tagged_eq htv a ▸ hta) (h.tagged_eq htv b ▸ htb)
        | inv a =>
          have ha : a ≠ 0x00#8 := by simpa [zeroShortcut] using hzero
          have hta : s.tagged a = true := by simpa [missingLog] using hlog
          refine ⟨_, inv_answers_expAt htv ha hta, ?_⟩
          rw [h.expAt_invIndex htv hta]
          exact inv_answers_expAt htv' ha (h.tagged_eq htv a ▸ hta)
        | rdexp e =>
          refine ⟨_, rdexp_answers_expAt htv e, ?_⟩
          rw [h.exp htv _ e.isLt]
          exact rdexp_answers_expAt htv' e
        | rdlog a =>
          have hta : s.tagged a = true := by simpa [missingLog] using hlog
          refine ⟨_, rdlog_answers_logAt htv hta, ?_⟩
          rw [h.log htv a hta]
          exact rdlog_answers_logAt htv' (h.tagged_eq htv a ▸ hta)
        | mulp | build | findgen => exact absurd hi Bool.false_ne_true

/-- A command has the same answer in both states, and both agree after its writes. -/
theorem State.TablesAgree.command_answers (i : Instr) :
    ∃ r, exec i s = .next ((s.afterWrites i).present r) ∧ exec i t = .next ((t.afterWrites i).present r) ∧
      (s.afterWrites i).TablesAgree (t.afterWrites i) := by
  cases hi : usesTables i with
  | true =>
    obtain ⟨r, hs, ht⟩ := h.table_command_answers hi
    rw [State.afterWrites_of_usesTables hi, State.afterWrites_of_usesTables hi]
    exact ⟨r, hs, ht, h⟩
  | false =>
    cases i with
    | mulp a b => exact ⟨_, mulp_answers a b s, mulp_answers a b t, h⟩
    | findgen => exact ⟨_, exec_findgen s, exec_findgen t, h⟩
    | build g =>
      refine ⟨_, exec_build g s, exec_build g t, ?_⟩
      exact (buildTables_holdsPowersOf g s).tablesAgree (buildTables_holdsPowersOf g t)
        ((buildTables_tv g s).trans (buildTables_tv g t).symm)
        ((buildTables_tagged_zero g s).trans (buildTables_tagged_zero g t).symm)
    | mult | inv | rdexp | rdlog => exact absurd hi.symm Bool.false_ne_true

theorem State.TablesAgree.word_answers (w : CmdWord) :
    ∃ s' t', runWord w s = .next s' ∧ runWord w t = .next t' ∧ s'.pending = t'.pending ∧ s'.TablesAgree t' := by
  cases hw : decode w with
  | ok i =>
    obtain ⟨r, hs, ht, hafter⟩ := h.command_answers i
    exact ⟨_, _, (runWord_of_decode hw s).trans hs, (runWord_of_decode hw t).trans ht,
      (State.present_pending _ r).trans (State.present_pending _ r).symm, hafter.present r⟩
  | error e =>
    have hrun (v : State) : runWord w v = .next (v.present (.fault .illegal)) := by rw [runWord, hw, raise]
    exact ⟨_, _, hrun s, hrun t, rfl, h.present _⟩

end

/-- Settles O52: a command reads `EXP` and the tags only when `TV` = 1, and `LOG` only where a tag is set. -/
theorem unspecifiedBytesUnobservable : Obligations.UnspecifiedBytesUnobservable :=
  fun w _ _ h => h.word_answers w

end Sys2Proof.Machine

/-! PROOFS. A response on the port is seen by no command, so a fault leaves no trace (R124, R125). -/

namespace Sys2Proof.Machine

theorem State.present_present (s : State) (q r : Response) : (s.present q).present r = s.present r := rfl

theorem buildIteration_present (g : Element) (i : Nat) (s : State) (r : Response) :
    buildIteration g i (s.present r) = (buildIteration g i s).present r := by
  rw [buildIteration, buildIteration, State.present_expAt, buildLogEntry, buildLogEntry]
  split <;> rfl

theorem buildUpTo_present (g : Element) (s : State) (r : Response) (n : Nat) :
    buildUpTo g (s.present r) n = (buildUpTo g s n).present r := by
  induction n with
  | zero => rfl
  | succ n ih => rw [buildUpTo, ih, buildIteration_present, buildUpTo]

theorem buildTables_present (g : Element) (s : State) (r : Response) :
    buildTables g (s.present r) = (buildTables g s).present r := by
  rw [buildTables, buildUpTo_present]
  rfl

/-- A command does the same whatever response the port still holds. -/
theorem exec_present (i : Instr) (s : State) (r : Response) : exec i (s.present r) = exec i s := by
  cases i with
  | build g => rw [exec_build, exec_build, buildTables_present, State.present_present]
  | mulp | mult | inv | findgen | rdexp | rdlog => rfl

theorem runWord_present (w : CmdWord) (s : State) (r : Response) : runWord w (s.present r) = runWord w s := by
  cases hw : decode w with
  | ok i => rw [runWord_of_decode hw, runWord_of_decode hw, exec_present]
  | error e =>
    rw [runWord, runWord, hw]
    rfl

/-- Settles O41: a fault changes the response port only, and no word reads it. -/
theorem faultsLeaveNoTrace : Obligations.FaultsLeaveNoTrace := by
  unfold Obligations.FaultsLeaveNoTrace
  intro w x s t f h hf
  obtain rfl := eq_present_of_runWord_fault h hf
  obtain ⟨u, r, hx, -⟩ := runWord_presents x s
  exact ⟨(runWord_present w s _).trans h, _, _, hx, (runWord_present x s _).trans hx, rfl⟩

end Sys2Proof.Machine

/-! PROOFS. One edge of the ports: acceptance, the held response, the broken hold and reset (R49 to R51, R134). -/

namespace Sys2Proof.Machine

/-! What a step is, one equation for each kind of edge. -/

theorem step_of_script {s : State} {p : Pins} {ps : List Pins} (h : s.script = p :: ps) :
    step s = edge p (s.withScript ps) := by
  rw [step, h]

/-- The host keeps its hold when no word is on offer or the word on offer stands on the port (R49). -/
theorem State.breaksHold_eq_false_iff (s : State) (p : Pins) :
    s.breaksHold p = false ↔ s.offered = none ∨ s.offered = p.cmd := by
  cases h : s.offered <;> simp [State.breaksHold, h]

theorem edge_of_rst {p : Pins} (h : p.rst = true) (s : State) : edge p s = .next s.takeReset := by
  rw [edge, if_pos h]

section
variable {p : Pins} (hrst : p.rst = false) {s : State}
include hrst

theorem edge_of_breaksHold (h : s.breaksHold p = true) : edge p s = .fault .hostDroppedCommand := by
  rw [edge, if_neg (by simp [hrst]), if_pos h]

variable (hhold : s.offered = none ∨ s.offered = p.cmd)
include hhold

theorem edge_of_inReset (hport : s.port = .inReset) : edge p s = .next (s.leaveReset.offer p.cmd) := by
  rw [edge, if_neg (by simp [hrst]), if_neg (by simp [(s.breaksHold_eq_false_iff p).mpr hhold]), hport]

theorem edge_of_responding {r : Response} (hport : s.port = .responding r) :
    edge p s = .next (if p.rspReady then (s.deliver r).offer p.cmd else s.offer p.cmd) := by
  rw [edge, if_neg (by simp [hrst]), if_neg (by simp [(s.breaksHold_eq_false_iff p).mpr hhold]), hport]

theorem edge_of_word (hport : s.port = .ready) {w : CmdWord} (hw : p.cmd = some w) :
    edge p s = runWord w (s.accept w) := by
  rw [edge, if_neg (by simp [hrst]), if_neg (by simp [(s.breaksHold_eq_false_iff p).mpr hhold]), hport, hw]

end

section
variable {s : State} {p : Pins} {ps : List Pins} (hscript : s.script = p :: ps)
include hscript

theorem step_of_rst (hrst : p.rst = true) : step s = .next (s.withScript ps).takeReset :=
  (step_of_script hscript).trans (edge_of_rst hrst _)

variable (hrst : p.rst = false)
include hrst

theorem step_of_breaksHold (h : s.breaksHold p = true) : step s = .fault .hostDroppedCommand :=
  (step_of_script hscript).trans (edge_of_breaksHold (s := s.withScript ps) hrst h)

variable (hhold : s.offered = none ∨ s.offered = p.cmd)
include hhold

theorem step_of_inReset (hport : s.port = .inReset) :
    step s = .next ((s.withScript ps).leaveReset.offer p.cmd) :=
  (step_of_script hscript).trans (edge_of_inReset (s := s.withScript ps) hrst hhold hport)

theorem step_of_responding {r : Response} (hport : s.port = .responding r) : step s =
    .next (if p.rspReady then ((s.withScript ps).deliver r).offer p.cmd else (s.withScript ps).offer p.cmd) :=
  (step_of_script hscript).trans (edge_of_responding (s := s.withScript ps) hrst hhold hport)

theorem step_of_word (hport : s.port = .ready) {w : CmdWord} (hw : p.cmd = some w) :
    step s = runWord w ((s.withScript ps).accept w) :=
  (step_of_script hscript).trans (edge_of_word (s := s.withScript ps) hrst hhold hport hw)

end

theorem State.cmdReady_iff (s : State) : s.cmdReady = true ↔ s.port = .ready := decide_eq_true_iff

/-- Settles O8: an edge at which a ready core is offered a word runs it. -/
theorem stepRunsDecodedCommand : Obligations.StepRunsDecodedCommand := by
  unfold Obligations.StepRunsDecodedCommand
  intro s p ps w i hscript hrst hw hport hhold hi
  rw [step_of_word hscript hrst (hw ▸ hhold) hport hw, runWord_of_decode hi]
  rfl

/-- Settles O10: an edge with a response pending delivers it or holds it, by `rsp_ready`. -/
theorem responseHeldUntilTaken : Obligations.ResponseHeldUntilTaken := by
  unfold Obligations.ResponseHeldUntilTaken
  intro s p ps r hscript hrst hhold hport
  rw [step_of_responding hscript hrst hhold hport]
  refine ⟨?notReady, fun hrsp => ?held, fun hrsp => ?taken⟩
  case notReady => rw [← Bool.not_eq_true, State.cmdReady_iff, hport]; nofun
  case held => rw [if_neg (by simp [hrsp])]; rfl
  case taken => rw [if_pos hrsp]; rfl

theorem accepted_of_runWord {w : CmdWord} {s t : State} (h : runWord w s = .next t) : t.accepted = s.accepted := by
  obtain ⟨u, r, hnext, hout, -⟩ := runWord_presents w s
  obtain rfl := Host.Outcome.next.inj (hnext.symm.trans h)
  exact hout.accepted

/-- Settles O9, by what each edge does to the record of accepted words: a reset edge empties it, an accepting edge adds
its word, every other edge keeps it. -/
theorem acceptanceExactly : Obligations.AcceptanceExactly := by
  unfold Obligations.AcceptanceExactly
  intro s t p ps w hscript h
  rw [step_of_script hscript] at h
  have hnone : s.accepted ≠ s.accepted ++ [w] := by simp
  obtain ⟨hrst, rfl⟩ | ⟨hrst, -, ⟨hport, rfl⟩ | ⟨r, hport, -, rfl⟩ | ⟨r, hport, -, rfl⟩ | ⟨-, hcmd, rfl⟩ |
    ⟨v, hport, hcmd, hrun⟩⟩ := edge_cases h
  · exact iff_of_false (by simp) (by simp [hrst])
  · exact iff_of_false hnone fun hacc => by cases hport.symm.trans ((s.cmdReady_iff).mp hacc.2.2)
  · exact iff_of_false hnone fun hacc => by cases hport.symm.trans ((s.cmdReady_iff).mp hacc.2.2)
  · exact iff_of_false hnone fun hacc => by cases hport.symm.trans ((s.cmdReady_iff).mp hacc.2.2)
  · exact iff_of_false hnone fun hacc => by cases hcmd.symm.trans hacc.2.1
  · have hready : s.cmdReady = true := s.cmdReady_iff.mpr hport
    rw [accepted_of_runWord hrun, hcmd]
    simp [hrst, hready]

/-- Settles O11: the one fault of a step is that of a broken hold, and no step is refused. -/
theorem onlyBrokenHoldStops : Obligations.OnlyBrokenHoldStops := by
  unfold Obligations.OnlyBrokenHoldStops
  refine fun s => ⟨?broken, fun hkept => ?kept⟩
  case broken =>
    rintro ⟨p, ps, w, hscript, hrst, hoffered, hcmd⟩
    refine step_of_breaksHold hscript hrst (Bool.not_eq_false _ ▸ fun h => ?_)
    obtain hnone | hsame := (s.breaksHold_eq_false_iff p).mp h
    · cases hoffered.symm.trans hnone
    · exact hcmd (hsame.symm.trans hoffered)
  case kept =>
    cases h : step s with
    | next t => exact ⟨t, rfl⟩
    | refused r => exact absurd h (step_not_refused s r)
    | fault f =>
      obtain ⟨p, ps, hscript, hrst, hbroken⟩ := step_fault h
      refine absurd ((s.breaksHold_eq_false_iff p).mpr ?_) (by simp [hbroken])
      cases hoffered : s.offered with
      | none => exact .inl rfl
      | some w => exact .inr (hkept p ps w hscript hrst hoffered).symm

/-! Reset (R134 to R136). -/

/-- Settles O44: without a pair the table commands fault, and no other command tests anything. -/
theorem resetState : Obligations.ResetState := by
  unfold Obligations.ResetState
  refine ⟨rfl, fun v => ?tags, rfl, rfl, fun i => raises_noTables_of_usesTables rfl, fun i hi => ?ok⟩
  case tags => exact BitVec.getLsbD_zero
  case ok =>
    obtain ⟨d, hd⟩ := ok_of_not_usesTables (s := State.reset) hi
    exact ⟨_, d, hd, rfl⟩

/-- Reset edges in a row leave what the last of them leaves. -/
theorem run_reset_edges {rs : List Pins} (hne : rs ≠ []) (hrst : ∀ p ∈ rs, p.rst = true) (ps : List Pins) (s : State)
    (hscript : s.script = rs ++ ps) :
    ∃ u : State, u.script = ps ∧ Host.Core.run Sys2Proof.core rs.length s = .next u.takeReset := by
  induction rs generalizing s with
  | nil => exact absurd rfl hne
  | cons p rs ih =>
    obtain ⟨hp, hrs⟩ := List.forall_mem_cons.mp hrst
    have hfirst : step s = .next (s.withScript (rs ++ ps)).takeReset := step_of_rst hscript hp
    rw [List.length_cons, core_run_first hfirst]
    by_cases hlast : rs = []
    · subst hlast
      exact ⟨_, rfl, rfl⟩
    · exact ih hlast hrs (s.withScript (rs ++ ps)).takeReset rfl

/-- Settles O45: reset edges leave the state of the last one, and the edge after them takes no word from the port. -/
theorem resetEdges : Obligations.ResetEdges := by
  unfold Obligations.ResetEdges
  intro s rs q ps hne hrst hq hscript
  obtain ⟨u, hu, hrun⟩ := run_reset_edges hne hrst (q :: ps) s hscript
  have hnext : step u.takeReset = .next ((u.takeReset.withScript ps).leaveReset.offer q.cmd) :=
    step_of_inReset hu hq (.inl rfl) rfl
  have htags (v : Element) : u.takeReset.tagged v = false := BitVec.getLsbD_zero
  exact ⟨⟨_, hrun, rfl, htags, rfl, rfl, rfl, rfl⟩,
    ⟨_, (core_run_last hrun).trans hnext, rfl, htags, rfl, rfl, rfl, rfl, rfl, rfl⟩⟩

/-- Settles O56: each edge of a host that takes no response moves the script and the offer only (R144). -/
theorem deafHostStalls : Obligations.DeafHostStalls := by
  unfold Obligations.DeafHostStalls
  intro n s r c ps hport hhold hscript
  induction n generalizing s with
  | zero => exact ⟨s, rfl, hport, rfl, rfl, State.SameTables.refl s, hscript⟩
  | succ n ih =>
    have hstep : step s = .next ((s.withScript (List.replicate n (deafEdge c) ++ ps)).offer c) :=
      step_of_responding (p := deafEdge c) hscript rfl hhold hport
    rw [core_run_first hstep]
    obtain ⟨t, hrun, htport, hacc, hrec, hsame, htscript⟩ :=
      ih ((s.withScript (List.replicate n (deafEdge c) ++ ps)).offer c) hport (.inr rfl) rfl
    exact ⟨t, hrun, htport, hacc, hrec, hsame.trans ⟨rfl, rfl, rfl, rfl⟩, htscript⟩

end Sys2Proof.Machine

/-! PROOFS. The transcript of a run: the responses are those of the accepted words applied one by one from reset, at
every step, and a host that keeps its duties gets one for each word (R43, R51, R148). -/

namespace Sys2Proof.Machine

/-! Words applied one by one. -/

theorem replay_cons {w : CmdWord} {s t : State} (h : runWord w s = .next t) (ws : List CmdWord) :
    replay s (w :: ws) = ((replay t ws).1, t.pending.toList ++ (replay t ws).2) := by
  rw [replay, h]

theorem replay_append (s : State) (vs ws : List CmdWord) :
    replay s (vs ++ ws) = ((replay (replay s vs).1 ws).1, (replay s vs).2 ++ (replay (replay s vs).1 ws).2) := by
  induction vs generalizing s with
  | nil => rfl
  | cons v vs ih =>
    obtain ⟨u, r, hnext, -⟩ := runWord_presents v s
    rw [List.cons_append, replay_cons hnext, replay_cons hnext, ih, List.append_assoc]

/-- Every word gets one response (R51). -/
theorem replay_length (s : State) (ws : List CmdWord) : (replay s ws).2.length = ws.length := by
  induction ws generalizing s with
  | nil => rfl
  | cons w ws ih =>
    obtain ⟨u, r, hnext, -⟩ := runWord_presents w s
    rw [replay_cons hnext, List.length_append, ih, State.present_pending, List.length_cons, Nat.add_comm]
    rfl

/-! The responses given so far. -/

theorem pending_of_responding {s : State} {r : Response} (h : s.port = .responding r) : s.pending = some r := by
  rw [State.pending, h]

theorem answered_of_not_responding {s : State} (h : ∀ r, s.port ≠ .responding r) : s.answered = s.received := by
  have hnone : s.pending = none := by
    rw [State.pending]
    split
    · next r hr => exact absurd hr (h r)
    · rfl
  rw [State.answered, hnone, Option.toList_none, List.append_nil]

/-! The transcript invariant. -/

theorem State.TranscriptInvariant.withScript {s : State} (h : s.TranscriptInvariant) (ps : List Pins) :
    (s.withScript ps).TranscriptInvariant :=
  ⟨⟨h.tables.tv, h.tables.exp, h.tables.logv, h.tables.log⟩, h.responses⟩

/-- A step that neither accepts a word nor loses a response keeps the invariant. -/
theorem State.TranscriptInvariant.congr {s t : State} (h : s.TranscriptInvariant) (hsame : s.SameTables t)
    (hacc : t.accepted = s.accepted) (hans : t.answered = s.answered) : t.TranscriptInvariant where
  tables := by
    obtain ⟨htv, hexp, hlogv, hlog⟩ := h.tables
    simp only [hacc]
    exact ⟨htv.trans hsame.tv, fun h1 i hi => (hexp h1 i hi).trans (hsame.expAt_eq i),
      fun h1 => (hlogv h1).trans hsame.logv, fun h1 v hv => (hlog h1 v hv).trans (hsame.logAt_eq v)⟩
  responses := by rw [hacc, hans, h.responses]

/-- A reset edge begins an empty transcript (R134). -/
theorem takeReset_transcriptInvariant (s : State) : s.takeReset.TranscriptInvariant :=
  ⟨⟨rfl, nofun, nofun, nofun⟩, rfl⟩

/-- The word a ready core accepts adds its response to the transcript. -/
theorem State.TranscriptInvariant.accept_word {s t : State} (h : s.TranscriptInvariant) (hport : s.port = .ready)
    {w : CmdWord} (hrun : runWord w (s.accept w) = .next t) : t.TranscriptInvariant := by
  have hagree : (replay State.reset s.accepted).1.TablesAgree (s.accept w) :=
    ⟨h.tables.tv, h.tables.exp, h.tables.logv, h.tables.log⟩
  obtain ⟨u, t', hu, ht, hpending, hafter⟩ := hagree.word_answers w
  obtain rfl := Host.Outcome.next.inj (ht.symm.trans hrun)
  obtain ⟨v, r, hv, hout, -⟩ := runWord_presents w (s.accept w)
  obtain rfl := Host.Outcome.next.inj (hv.symm.trans hrun)
  have hlast : replay State.reset (s.accepted ++ [w]) =
      (u, (replay State.reset s.accepted).2 ++ u.pending.toList) := by
    rw [replay_append, replay_cons hu, replay, List.append_nil]
  have hnone : s.answered = s.received := answered_of_not_responding (by simp [hport])
  have hacc : (v.present r).accepted = s.accepted ++ [w] := hout.accepted
  refine ⟨?tables, ?responses⟩
  case tables => rw [hacc, hlast]; exact hafter
  case responses =>
    rw [hacc, hlast, h.responses, hnone, hpending, State.answered, State.present_received, hout.received]
    rfl

/-- Settles O53: at reset the transcript is empty. -/
theorem transcriptAtReset : Obligations.TranscriptAtReset := ⟨⟨rfl, nofun, nofun, nofun⟩, rfl⟩

/-- An accepted word answers from the machine's tables as from those of its words; every other edge out of reset keeps
the tables, the accepted words and the responses given. -/
theorem State.TranscriptInvariant.edge {s t : State} (h : s.TranscriptInvariant) {p : Pins}
    (hedge : edge p s = .next t) : t.TranscriptInvariant := by
  obtain ⟨-, rfl⟩ | ⟨-, -, ⟨hport, rfl⟩ | ⟨r, hport, -, rfl⟩ | ⟨r, -, -, rfl⟩ | ⟨-, -, rfl⟩ | ⟨w, hport, -, hrun⟩⟩ :=
    edge_cases hedge
  · exact takeReset_transcriptInvariant s
  · refine h.congr ⟨rfl, rfl, rfl, rfl⟩ rfl ?_
    rw [answered_of_not_responding (by simp), answered_of_not_responding (by simp [hport])]
    rfl
  · refine h.congr ⟨rfl, rfl, rfl, rfl⟩ rfl ?_
    rw [answered_of_not_responding (by simp), State.answered, pending_of_responding hport]
    rfl
  · exact h.congr ⟨rfl, rfl, rfl, rfl⟩ rfl rfl
  · exact h.congr ⟨rfl, rfl, rfl, rfl⟩ rfl rfl
  · exact h.accept_word hport hrun

/-- Settles O54, by its edge: the records and the tables do not depend on the script. -/
theorem transcriptKept : Obligations.TranscriptKept := by
  unfold Obligations.TranscriptKept
  intro s t hs h
  obtain ⟨-, rfl⟩ | ⟨p, ps, -, hedge⟩ := step_cases h
  · exact hs
  · exact (hs.withScript ps).edge hedge

/-- What every step keeps, every run keeps. -/
theorem run_keeps {P : State → Prop} (hstep : ∀ s t, P s → step s = .next t → P t) {n : Nat} {s t : State} (hs : P s)
    (h : Host.Core.run Sys2Proof.core n s = .next t) : P t := by
  induction n generalizing s with
  | zero => exact Host.Outcome.next.inj h ▸ hs
  | succ n ih =>
    cases hu : step s with
    | next u => exact ih (hstep s u hs hu) ((core_run_first hu n).symm.trans h)
    | fault f =>
      have hcore : Sys2Proof.core.step s = .fault f := hu
      simp [Host.Core.run, hcore] at h
    | refused r => exact absurd hu (step_not_refused s r)

/-! A host that keeps its duties. -/

/-- The core is ready, nothing is on offer, and the host is about to present the words one by one. -/
structure State.AwaitsWords (s : State) (ws : List CmdWord) : Prop where
  port : s.port = .ready
  offered : s.offered = none
  script : s.script = hostScript ws

/-- A word takes two steps: one accepts and runs it, one delivers its response (log entries 1 and 2). -/
theorem State.AwaitsWords.word_taken {s : State} {w : CmdWord} {ws : List CmdWord} (h : s.AwaitsWords (w :: ws)) :
    ∃ u t, step s = .next u ∧ step u = .next t ∧ t.AwaitsWords ws ∧ t.accepted = s.accepted ++ [w] := by
  obtain ⟨hport, hoffered, hscript⟩ := h
  obtain ⟨v, r, hrun, hout, -⟩ :=
    runWord_presents w ((s.withScript (⟨false, none, true⟩ :: hostScript ws)).accept w)
  have hfirst : step s = .next (v.present r) := by
    rw [step_of_word hscript rfl (.inl hoffered) hport rfl, hrun]
  have hsecond : step (v.present r) = .next ((((v.present r).withScript (hostScript ws)).deliver r).offer none) :=
    step_of_responding (s := v.present r) (p := ⟨false, none, true⟩) hout.script rfl (.inl hout.offered) rfl
  exact ⟨_, _, hfirst, hsecond, ⟨rfl, rfl, rfl⟩, hout.accepted⟩

theorem State.AwaitsWords.words_taken {s : State} {ws : List CmdWord} (h : s.AwaitsWords ws) :
    ∃ t, Host.Core.run Sys2Proof.core (2 * ws.length) s = .next t ∧ t.AwaitsWords [] ∧
      t.accepted = s.accepted ++ ws := by
  induction ws generalizing s with
  | nil => exact ⟨s, rfl, h, (List.append_nil _).symm⟩
  | cons w ws ih =>
    obtain ⟨u, v, hfirst, hsecond, hv, hacc⟩ := h.word_taken
    obtain ⟨t, hrun, ht, hall⟩ := ih hv
    refine ⟨t, ?_, ht, ?_⟩
    · rw [List.length_cons, Nat.mul_succ, core_run_first hfirst, core_run_first hsecond, hrun]
    · rw [hall, hacc, List.append_assoc, List.singleton_append]

/-- From reset, a host that keeps its duties gets the responses of its words applied one by one. -/
theorem run_hostScript (ws : List CmdWord) : ∃ t,
    Host.Core.run Sys2Proof.core (2 * ws.length) (State.reset.withScript (hostScript ws)) = .next t ∧
      t.AwaitsWords [] ∧ t.accepted = ws ∧ t.answered = t.received ∧ t.received = (replay State.reset ws).2 := by
  have hstart : (State.reset.withScript (hostScript ws)).AwaitsWords ws := ⟨rfl, rfl, rfl⟩
  obtain ⟨t, hrun, ht, hacc⟩ := hstart.words_taken
  have hkept := run_keeps transcriptKept (State.TranscriptInvariant.withScript transcriptAtReset (hostScript ws)) hrun
  have hans : t.answered = t.received := answered_of_not_responding (by simp [ht.port])
  have hacc' : t.accepted = ws := hacc
  exact ⟨t, hrun, ht, hacc', hans, by rw [← hans, ← hkept.responses, hacc']⟩

/-- Settles O55: two steps a word empty the script, and the transcript invariant says what was received. -/
theorem everyCommandAnswered : Obligations.EveryCommandAnswered := by
  unfold Obligations.EveryCommandAnswered
  intro ws
  obtain ⟨t, hrun, ht, hacc, -, hrec⟩ := run_hostScript ws
  exact ⟨t, hrun, hacc, hrec, by rw [hrec, replay_length], t.cmdReady_iff.mpr ht.port, ht.script⟩

/-! Words that a generator's pair answers without a fault (R137, R138). -/

/-- A legal word that builds from generators only and is not `RDLOG 0x00`. -/
def SafeWord (w : CmdWord) : Prop :=
  ∃ i, decode w = .ok i ∧ i ≠ .rdlog 0x00#8 ∧ ∀ h, i = .build h → IsGenerator h

/-- On the pair of a generator a safe word is answered `OK` and leaves the pair of a generator. -/
theorem State.BuiltBy.safeWord_answers {g : Element} {s : State} (hs : s.BuiltBy g) (hg : IsGenerator g)
    {w : CmdWord} (hw : SafeWord w) :
    ∃ t d, runWord w s = .next t ∧ t.pending = some (.ok d) ∧ ∃ h, IsGenerator h ∧ t.BuiltBy h := by
  obtain ⟨i, hi, hlog0, hbuild⟩ := hw
  rw [runWord_of_decode hi]
  obtain ⟨⟨htv, -⟩, -⟩ | ⟨-, hlog⟩ | ⟨d, hd⟩ := exec_faults_or_ok i s
  · exact absurd (htv.symm.trans hs.tv_eq) Bool.false_ne_true
  · obtain h0 | ⟨v, hgap, -⟩ := (hs.raises_noLog_iff_listed i).mp hlog
    · exact absurd h0 hlog0
    · exact absurd hgap (hs.not_gap hg v)
  · refine ⟨_, d, hd, State.present_pending _ _, ?_⟩
    obtain hsame | ⟨h, rfl⟩ := exec_sameTables_or_build hd
    · exact ⟨g, hg, hs.of_sameTables hsame.symm⟩
    · exact ⟨h, hbuild h rfl, builtBy_of_exec hd⟩

theorem State.BuiltBy.replay_safe {g : Element} {s : State} (hs : s.BuiltBy g) (hg : IsGenerator g)
    {ws : List CmdWord} (hws : ∀ w ∈ ws, SafeWord w) : hasFaulted (replay s ws).2 = false := by
  induction ws generalizing s g with
  | nil => rfl
  | cons w ws ih =>
    obtain ⟨hw, hrest⟩ := List.forall_mem_cons.mp hws
    obtain ⟨t, d, hrun, hok, h, hh, ht⟩ := hs.safeWord_answers hg hw
    rw [replay_cons hrun, hok]
    exact ih ht hh hrest

/-- Settles O42: the run's responses are those of its words from reset, the first of which builds a generator's pair. -/
theorem generatorRunIsSafe : Obligations.GeneratorRunIsSafe := by
  unfold Obligations.GeneratorRunIsSafe
  intro g ws hg hws
  obtain ⟨t, hrun, -, -, hans, hrec⟩ := run_hostScript (encode (.build g) :: ws)
  refine ⟨t, hrun, ?_⟩
  have hfirst : runWord (encode (.build g)) State.reset = .next ((buildTables g State.reset).present (.ok 0#256)) :=
    (runWord_of_decode (decodeInvertsEncode (.build g)) State.reset).trans (exec_build g State.reset)
  have hpair : ((buildTables g State.reset).present (.ok 0#256)).BuiltBy g := builtBy_of_exec (exec_build g State.reset)
  rw [hans, hrec, replay_cons hfirst, State.present_pending]
  exact hpair.replay_safe hg hws

end Sys2Proof.Machine

/-! PROOFS. The nonzero elements are the powers of one generator, so their powers 255 are 1, they cancel, and their
orders are known (R72, R101, R107). -/

namespace Sys2Proof.Machine

/-- Settles O13: the loop is linear in both operands, and commutes with multiplying by `x`. -/
theorem mulpRingLaws : Obligations.MulpRingLaws := by
  unfold Obligations.MulpRingLaws
  intro a b c
  exact ⟨mulp_comm a b, mulp_assoc a b c, mulp_one_right a, mulp_one_left a, mulp_zero_right a, mulp_zero_left a,
    mulp_xor_right a b c⟩

/-! Powers of powers. -/

theorem mulp_power_eq_iterate (g : Element) (m : Nat) : mulp (power g m) = (mulp g)^[m] := by
  induction m with
  | zero => exact funext mulp_one_left
  | succ m ih =>
    rw [Function.iterate_succ', ← ih]
    exact funext fun b => mulp_assoc g _ b

theorem power_mul (g : Element) (m n : Nat) : power g (m * n) = power (power g m) n := by
  rw [power_eq_iterate, power_eq_iterate, mulp_power_eq_iterate, Function.iterate_mul]

theorem isGenerator_three : IsGenerator 0x03#8 := by
  unfold IsGenerator
  decide +kernel

/-- The order of the multiplicative group is 255. -/
theorem power_groupOrder {a : Element} (ha : a ≠ 0x00#8) : power a 255 = 0x01#8 := by
  obtain ⟨i, -, rfl⟩ := exists_power_eq isGenerator_three ha
  rw [← power_mul]
  exact (power_eq_power_iff isGenerator_three (i * 255) 0).mpr (by omega)

/-! Cancellation (R72). -/

/-- A nonzero element has an inverse. -/
theorem mulp_power_254 {a : Element} (ha : a ≠ 0x00#8) : mulp (power a 254) a = 0x01#8 :=
  (mulp_comm _ a).trans (power_groupOrder ha)

theorem mulp_left_cancel {a b c : Element} (ha : a ≠ 0x00#8) (h : mulp a b = mulp a c) : b = c :=
  calc b = mulp (power a 254) (mulp a b) := by rw [← mulp_assoc, mulp_power_254 ha, mulp_one_left]
    _ = c := by rw [h, ← mulp_assoc, mulp_power_254 ha, mulp_one_left]

/-- Settles O14: multiplying by the inverse undoes a multiplication. -/
theorem mulpCancels : Obligations.MulpCancels := by
  unfold Obligations.MulpCancels
  refine ⟨fun a b h => ?_, fun a ha => Finite.injective_iff_bijective.mp fun b c => mulp_left_cancel ha⟩
  refine or_iff_not_imp_left.mpr fun ha => mulp_left_cancel ha ?_
  rw [h, mulp_zero_right]

/-! Orders (R101, R105). -/

theorem ordLoop_zero (n k : Nat) : ordLoop 0x00#8 n 0x00#8 k = none := by
  induction n generalizing k with
  | zero => rfl
  | succ n ih => rw [ordLoop, if_neg (by decide), mulp_zero_right, ih]

theorem ne_zero_of_ord {g : Element} {k : Nat} (h : ord g = some k) : g ≠ 0x00#8 := by
  rintro rfl
  exact Option.some_ne_none k (h.symm.trans (ordLoop_zero 255 1))

theorem exists_ord_eq {g : Element} (hg : g ≠ 0x00#8) : ∃ k, ord g = some k := by
  classical
  have hex : ∃ k, 1 ≤ k ∧ power g k = 0x01#8 := ⟨255, by omega, power_groupOrder hg⟩
  obtain ⟨hpos, hone⟩ := Nat.find_spec hex
  have hle : Nat.find hex ≤ 255 := Nat.find_min' hex ⟨by omega, power_groupOrder hg⟩
  exact ⟨Nat.find hex, (ord_eq_some_iff g _).mpr ⟨hpos, hle, hone, fun j hj hlt h => Nat.find_min hex hlt ⟨hj, h⟩⟩⟩

/-- Settles O28: some power of a nonzero element, at most 255, is 1, and the loop stops at the first. -/
theorem ordIsTheOrder : Obligations.OrdIsTheOrder := by
  unfold Obligations.OrdIsTheOrder
  refine ⟨fun g hg => ?_, fun n => ordLoop_zero n 1⟩
  obtain ⟨k, hk⟩ := exists_ord_eq hg
  exact ⟨k, hk, (ord_eq_some_iff g k).mp hk⟩

/-- An order divides the order of the group. -/
theorem ord_dvd_groupOrder {g : Element} {k : Nat} (h : ord g = some k) : k ∣ 255 := by
  have hmod := (power_eq_power_iff h 255 0).mp (power_groupOrder (ne_zero_of_ord h))
  exact Nat.dvd_of_mod_eq_zero (hmod.trans (Nat.zero_mod k))

/-- An element whose powers are all the nonzero elements is a generator: `x + 1` is one of them, and its order 255
divides that of the element. -/
theorem isGenerator_of_powers {g : Element} (h : ∀ v, v ≠ 0x00#8 → ∃ i, power g i = v) (hg : g ≠ 0x00#8) :
    IsGenerator g := by
  obtain ⟨k, hk⟩ := exists_ord_eq hg
  obtain ⟨hpos, hle, hone, -⟩ := (ord_eq_some_iff g k).mp hk
  obtain ⟨i, hi⟩ := h 0x03#8 (by decide)
  have hthree : power 0x03#8 k = power 0x03#8 0 := by
    rw [← hi, ← power_mul, ← power_mod_ord hk, Nat.mul_mod_left]
    rfl
  have hmod : k % 255 = 0 := (power_eq_power_iff isGenerator_three k 0).mp hthree
  obtain rfl : k = 255 := by omega
  exact hk

/-- The order of each power of a generator, by its greatest common divisor with 255 (R107). -/
theorem ord_power_of_isGenerator {g : Element} (hg : IsGenerator g) (i : Nat) :
    ord (power g i) = some (255 / Nat.gcd 255 i) := by
  obtain ⟨k, hk⟩ := exists_ord_eq (power_ne_zero_of_ord hg i)
  have hper : (0x01#8 : Element) ∈ Function.periodicPts (mulp g) :=
    ⟨255, by omega, (power_eq_iterate g 255).symm.trans (power_groupOrder_of_isGenerator hg)⟩
  have hiter := Function.minimalPeriod_iterate_eq_div_gcd' (n := i) hper
  rw [← mulp_power_eq_iterate, minimalPeriod_mulp_of_ord hk, minimalPeriod_mulp_of_ord hg] at hiter
  rw [hk, hiter]

/-- As many elements have order `k` as there are numbers below `k` prime to it. -/
theorem card_ord_eq_totient {k : Nat} (hk : k ∣ 255) :
    (Finset.univ.filter fun g : Element => ord g = some k).card = k.totient := by
  have hdiv : 255 / (255 / k) = k := Nat.div_div_self hk (by decide)
  rw [← hdiv, Nat.totient_div_of_dvd (Nat.div_dvd_of_dvd hk), hdiv]
  refine (Finset.card_nbij (power 0x03#8) (fun i hi => ?maps) (fun i hi j hj => ?inj) fun g hg => ?surj).symm
  case maps =>
    obtain ⟨-, hgcd⟩ := Finset.mem_filter.mp hi
    refine Finset.mem_filter.mpr ⟨Finset.mem_univ _, ?_⟩
    rw [ord_power_of_isGenerator isGenerator_three, hgcd, hdiv]
  case inj =>
    obtain ⟨hi255, -⟩ := Finset.mem_filter.mp hi
    obtain ⟨hj255, -⟩ := Finset.mem_filter.mp hj
    exact power_inj_of_lt_ord isGenerator_three (Finset.mem_range.mp hi255) (Finset.mem_range.mp hj255)
  case surj =>
    obtain ⟨-, hord⟩ := Finset.mem_filter.mp hg
    obtain ⟨i, hi, rfl⟩ := exists_power_eq isGenerator_three (ne_zero_of_ord hord)
    rw [ord_power_of_isGenerator isGenerator_three, Option.some.injEq] at hord
    refine ⟨i, Finset.mem_coe.mpr (Finset.mem_filter.mpr ⟨Finset.mem_range.mpr hi, ?_⟩), rfl⟩
    rw [← hord, Nat.div_div_self (Nat.gcd_dvd_left 255 i) (by decide)]

/-- Settles O31, by the totients of the eight divisors of 255. -/
theorem ordersThatOccur : Obligations.OrdersThatOccur := by
  unfold Obligations.OrdersThatOccur
  intro k n hkn
  have htotients : ∀ p ∈ [(1, 1), (3, 2), (5, 4), (15, 8), (17, 16), (51, 32), (85, 64), (255, 128)],
      p.1 ∣ 255 ∧ p.1.totient = p.2 := by decide +kernel
  obtain ⟨hk, hn⟩ := htotients (k, n) hkn
  exact ⟨Nat.mod_eq_zero_of_dvd hk, (card_ord_eq_totient hk).trans hn⟩

/-! The constant of `FINDGEN` (R106). -/

/-- The constant of R106. -/
def generatorMap : Data := 0xE9734EEC74C1C313C79436F12B69C5D24EC363308FD4DBE2D003158ED79E4A68#256

/-- Along the powers of `x + 1` the constant has its bits at the exponents prime to 255. -/
theorem getLsbD_generatorMap_power {i : Nat} (hi : i < 255) :
    generatorMap.getLsbD (power 0x03#8 i).toNat = true ↔ Nat.gcd 255 i = 1 := by
  have hall : ∀ p ∈ (List.iterate (mulp 0x03#8) 0x01#8 255).zipIdx,
      generatorMap.getLsbD p.1.toNat = true ↔ Nat.gcd 255 p.2 = 1 := by decide +kernel
  refine hall (power 0x03#8 i, i) ?_
  rw [List.mk_mem_zipIdx_iff_getElem?, List.getElem?_eq_getElem (by rwa [List.length_iterate]), List.getElem_iterate,
    power_eq_iterate]

theorem getLsbD_generatorMap (g : Element) : generatorMap.getLsbD g.toNat = true ↔ ord g = some 255 := by
  by_cases hg : g = 0x00#8
  · subst hg
    exact iff_of_false (by decide) fun h => ne_zero_of_ord h rfl
  · obtain ⟨i, hi, rfl⟩ := exists_power_eq isGenerator_three hg
    rw [getLsbD_generatorMap_power hi, ord_power_of_isGenerator isGenerator_three, Option.some.injEq]
    refine ⟨fun h => by rw [h], fun h => ?_⟩
    rw [← Nat.div_div_self (Nat.gcd_dvd_left 255 i) (by decide), h]

/-- The candidates 2 to 255 leave out no generator. -/
theorem two_le_of_isGenerator {g : Element} (hg : IsGenerator g) : 2 ≤ g.toNat := by
  have hzero : g ≠ 0x00#8 := ne_zero_of_ord hg
  have hone : g ≠ 0x01#8 := by
    rintro rfl
    exact absurd hg (by decide)
  bv_omega

theorem generatorsUpTo_eq_generatorMap : generatorsUpTo 254 = generatorMap := by
  refine BitVec.eq_of_getLsbD_eq fun i hi => Bool.eq_iff_iff.mpr ?_
  have htoNat : (BitVec.ofNat 8 i).toNat = i := by rw [BitVec.toNat_ofNat, Nat.mod_eq_of_lt hi]
  have hmap := getLsbD_generatorMap (BitVec.ofNat 8 i)
  rw [htoNat] at hmap
  rw [getLsbD_generatorsUpTo (le_refl _), hmap, and_iff_right_iff_imp]
  intro hgen
  have hlow := two_le_of_isGenerator hgen
  omega

/-- Settles O30: along the powers of one generator the generators are those with exponents prime to 255. -/
theorem findgenConstant : Obligations.FindgenConstant := by
  unfold Obligations.FindgenConstant
  refine ⟨fun s => ?_, (card_ord_eq_totient (by decide)).trans (by decide +kernel)⟩
  rw [exec_findgen, generatorsUpTo_eq_generatorMap, generatorMap]

end Sys2Proof.Machine

/-! PROOFS. The pairs of operands that are no generators: their gaps, and what the table commands answer on them
(R83, R84, R92, R98, R112, R113). -/

namespace Sys2Proof.Machine

/-! The logarithms of an operand of order `k` (R83). -/

section
variable {g : Element} {u : State} (hu : u.HoldsPowersOf g) {k : Nat} (hk : ord g = some k)
include hu hk

/-- The last turn of the powers through `EXP` writes index 255 with exponent `k`, which is 1 again. -/
theorem State.HoldsPowersOf.lastIndex_power {j : Nat} (hlo : 1 ≤ j) (hhi : j ≤ k) :
    u.LastIndex (power g j) (j + 255 - k) := by
  obtain ⟨-, hk255, -⟩ := (ord_eq_some_iff g k).mp hk
  have hindex : (j + 255 - k) % k = j % k := by
    obtain ⟨m, hm⟩ := ord_dvd_groupOrder hk
    obtain ⟨m, rfl⟩ : ∃ m', m = m' + 1 := Nat.exists_eq_succ_of_ne_zero (by rintro rfl; omega)
    rw [hm, Nat.mul_succ, ← Nat.add_assoc, Nat.add_sub_cancel, Nat.add_mul_mod_self_left]
  refine ⟨by omega, by omega, ?here, fun i hi hi255 hij => ?last⟩
  case here => rw [hu.expAt_eq_power (by omega), power_eq_power_iff hk, hindex]
  case last =>
    rw [hu.expAt_eq_power hi255, power_eq_power_iff hk, ← hindex] at hij
    have hle := Nat.le_of_dvd (by omega) ((Nat.modEq_iff_dvd' hi.le).mp hij.symm)
    omega

theorem State.HoldsPowersOf.tagged_power {j : Nat} (hlo : 1 ≤ j) (hhi : j ≤ k) : u.tagged (power g j) = true := by
  have hlast := hu.lastIndex_power hk hlo hhi
  exact (hu.tag _ (power_ne_zero_of_ord hk j)).mpr ⟨_, hlast.low, hlast.high, hlast.here⟩

theorem State.HoldsPowersOf.logAt_power {j : Nat} (hlo : 1 ≤ j) (hhi : j ≤ k) :
    (u.logAt (power g j)).toNat = (j + 255 - k) % 255 := by
  obtain ⟨i, hlast, hi⟩ := hu.log _ (hu.tagged_power hk hlo hhi)
  rw [hi, hlast.unique (hu.lastIndex_power hk hlo hhi)]

/-- The `k` distinct powers are tagged. -/
theorem State.HoldsPowersOf.tagged_of_power {j : Nat} (hj : j < k) : u.tagged (power g j) = true := by
  obtain ⟨hpos, -, hone, -⟩ := (ord_eq_some_iff g k).mp hk
  obtain rfl | hlo := j.eq_zero_or_pos
  · rw [power, ← hone]
    exact hu.tagged_power hk hpos (le_refl k)
  · exact hu.tagged_power hk hlo hj.le

end

/-- The exponents of a tagged element on a pair that a `BUILD` left. -/
theorem State.BuiltBy.tagged_iff {g : Element} {u : State} (hu : u.BuiltBy g) (v : Element) :
    u.tagged v = true ↔ v ≠ 0x00#8 ∧ ∃ i, 1 ≤ i ∧ i ≤ 255 ∧ u.expAt i = v := by
  by_cases hv : v = 0x00#8
  · subst hv
    exact iff_of_false (by simp [hu.tagged_zero]) fun h => h.1 rfl
  · rw [hu.holdsPowersOf.tag v hv, and_iff_right hv]

/-- The divisors of 255 below it. -/
theorem mem_proper_orders {k : Nat} (hlt : k < 255) (hdvd : k ∣ 255) : k ∈ [1, 3, 5, 15, 17, 51, 85] := by
  revert k
  decide +kernel

/-- Settles O19: `EXP` goes round the subgroup, and the last round of its 255 iterations leaves the logarithms. -/
theorem nonGeneratorLeavesGaps : Obligations.NonGeneratorLeavesGaps := by
  unfold Obligations.NonGeneratorLeavesGaps
  intro g s k hg hk hlt
  have hbuilt := builtBy_of_exec (exec_build g s)
  have hu := hbuilt.holdsPowersOf
  obtain ⟨hpos, -, hone, -⟩ := (ord_eq_some_iff g k).mp hk
  refine ⟨mem_proper_orders hlt (ord_dvd_groupOrder hk), _, exec_build g s, hbuilt.tv_eq, fun i hi => ?periodic, ?last,
    fun v => ⟨fun hv => ?power, ?tagged⟩, fun i j => power_inj_of_lt_ord hk, ?logOne, fun j hlo hhi => ?log⟩
  case periodic =>
    have hmod : i % k ≤ 255 := (Nat.mod_le i k).trans hi
    exact ⟨hu.expAt_eq_power hi, (hu.expAt_eq_expAt_iff hk hi hmod).mpr (Nat.mod_mod i k).symm⟩
  case last => rw [hu.expAt_eq_power (le_refl _), power_groupOrder hg]
  case power =>
    obtain ⟨-, i, -, hi, rfl⟩ := (hbuilt.tagged_iff v).mp hv
    exact ⟨i % k, Nat.mod_lt i hpos, by rw [power_mod_ord hk, hu.expAt_eq_power hi]⟩
  case tagged =>
    rintro ⟨j, hj, rfl⟩
    exact hu.tagged_of_power hk hj
  case logOne =>
    have hlog := hu.logAt_power hk hpos (le_refl k)
    rw [hone, Nat.add_sub_cancel_left] at hlog
    exact BitVec.eq_of_toNat_eq hlog
  case log =>
    rw [hu.logAt_power hk hlo (by omega), Nat.mod_eq_of_lt (by omega)]

/-! The two degenerate operands (R84). -/

theorem power_one_base (i : Nat) : power 0x01#8 i = 0x01#8 := by
  induction i with
  | zero => rfl
  | succ i ih => rw [power, ih, mulp_one_left]

theorem power_zero_base {i : Nat} (hi : 1 ≤ i) : power 0x00#8 i = 0x00#8 := by
  obtain ⟨i, rfl⟩ := Nat.exists_eq_add_of_le' hi
  exact mulp_zero_left _

/-- `BUILD 0x00` tags nothing: it writes no other element. -/
theorem State.BuiltBy.not_tagged_of_zero {u : State} (hu : u.BuiltBy 0x00#8) (v : Element) : u.tagged v = false := by
  rw [← Bool.not_eq_true, hu.tagged_iff]
  rintro ⟨hv, i, hlo, hhi, rfl⟩
  exact hv ((hu.holdsPowersOf.expAt_eq_power hhi).trans (power_zero_base hlo))

/-- Settles O20: 1 has order 1, so O19 speaks of it; the powers of 0 are 0, and no tag is set. -/
theorem degenerateBuilds : Obligations.DegenerateBuilds := by
  unfold Obligations.DegenerateBuilds
  refine ⟨fun s => ?one, fun s => ?zero⟩
  case one =>
    obtain ⟨-, t, hexec, htv, hexp, -, htag, -, hlog, -⟩ :=
      nonGeneratorLeavesGaps 0x01#8 s 1 (by decide) (by decide) (by decide)
    have hpending : t.pending = some (.ok 0#256) := by
      rw [← Host.Outcome.next.inj hexec]
      rfl
    refine ⟨t, hexec, htv, hpending, fun i hi => ?_, hlog, fun v => ?_⟩
    · rw [(hexp i hi).1, power_one_base]
    · rw [htag v]
      simp [power_one_base]
  case zero =>
    have hbuilt := builtBy_of_exec (exec_build 0x00#8 s)
    have hu := hbuilt.holdsPowersOf
    have htv := hbuilt.tv_eq
    have htag := hbuilt.not_tagged_of_zero
    refine ⟨_, exec_build 0x00#8 s, htv, rfl, hu.exp_zero, fun i hlo hhi => ?exp, htag,
      fun a b ha hb => mult_raises_noLog htv ha hb (.inl (htag a)), fun a ha => inv_raises_noLog htv ha (htag a),
      fun e => ?read⟩
    case exp => rw [hu.expAt_eq_power hhi, power_zero_base hlo]
    case read =>
      have hread := rdexp_answers_expAt htv e
      rw [hu.expAt_eq_power (Nat.le_of_lt_succ e.isLt)] at hread
      split
      · next he =>
        subst he
        exact hread
      · next he =>
        rw [power_zero_base (by bv_omega)] at hread
        exact hread

/-! `MULT` and `INV` inside the subgroup (R92, R98). -/

section
variable {g : Element} {u : State} (hu : u.BuiltBy g)
include hu

/-- A pair with a tag is not that of 0, so its powers return to 1. -/
theorem State.BuiltBy.power_groupOrder_of_tagged {a : Element} (ha : u.tagged a = true) : power g 255 = 0x01#8 := by
  refine power_groupOrder ?_
  rintro rfl
  exact Bool.false_ne_true ((hu.not_tagged_of_zero a).symm.trans ha)

theorem State.BuiltBy.ne_zero_of_tagged {a : Element} (ha : u.tagged a = true) : a ≠ 0x00#8 :=
  ((hu.tagged_iff a).mp ha).1

theorem State.BuiltBy.mult_answers_of_tagged {a b : Element} (ha : u.tagged a = true) (hb : u.tagged b = true) :
    Answers (.mult a b) u (elementData (mulp a b)) := by
  rw [← hu.holdsPowersOf.expAt_multIndex (hu.power_groupOrder_of_tagged ha) ha hb]
  exact mult_answers_expAt hu.tv_eq (hu.ne_zero_of_tagged ha) (hu.ne_zero_of_tagged hb) ha hb

end

/-- Settles O23: adding logarithms modulo 255 multiplies the powers of any operand but 0, which tags nothing. -/
theorem multInsideTheSubgroup : Obligations.MultInsideTheSubgroup := by
  unfold Obligations.MultInsideTheSubgroup
  refine fun g u hu => ⟨fun a b => hu.mult_answers_of_tagged, fun a b hgap hb => ⟨?left, ?right⟩⟩
  case left => exact (hu.mult_raises_noLog_iff a b).mpr ⟨hgap.1, hb, .inl hgap⟩
  case right => exact (hu.mult_raises_noLog_iff b a).mpr ⟨hb, hgap.1, .inr hgap⟩

/-- Settles O27: the exponents `log[a]` and `255 - log[a]` add to 255 on the powers of any operand but 0. -/
theorem invInsideTheSubgroup : Obligations.InvInsideTheSubgroup := by
  unfold Obligations.InvInsideTheSubgroup
  refine fun g u hu => ⟨fun a ha => ?tagged, fun a hgap => (hu.inv_raises_noLog_iff a).mpr hgap⟩
  case tagged =>
    exact ⟨_, inv_answers_expAt hu.tv_eq (hu.ne_zero_of_tagged ha) ha,
      hu.holdsPowersOf.mulp_expAt_invIndex (hu.power_groupOrder_of_tagged ha) ha⟩

/-! Index arithmetic (R90, R96). -/

/-- A logarithm is reduced modulo 255. -/
theorem State.TableInvariant.logAt_lt {u : State} (hu : u.TableInvariant) (htv : u.tv = true) {a : Element}
    (ha : u.tagged a = true) : (u.logAt a).toNat < 255 := by
  obtain ⟨g, hg⟩ := hu.built htv
  obtain ⟨j, -, hj⟩ := hg.log a ha
  exact hj ▸ Nat.mod_lt j (by decide)

/-- Settles O24: logarithms are below 255, so one subtraction reduces their sum. -/
theorem tableIndexRanges : Obligations.TableIndexRanges := by
  unfold Obligations.TableIndexRanges
  intro u hu htv a b ha hb
  have hla := hu.logAt_lt htv ha
  have hlb := hu.logAt_lt htv hb
  rw [multIndex, invIndex, Config.groupOrder, BitVec.toNat_not]
  refine ⟨by omega, by omega, ?_, by omega, by omega, by omega⟩
  split <;> omega

/-! What the read commands reveal (R112, R113). -/

theorem rdlog_answers_iff {u : State} (htv : u.tv = true) (v : Element) :
    (∃ d, Answers (.rdlog v) u d) ↔ u.tagged v = true := by
  refine ⟨fun ⟨d, hd⟩ => ?_, fun hv => ⟨_, rdlog_answers_logAt htv hv⟩⟩
  by_contra hv
  cases response_unique hd (rdlog_raises_noLog htv (Bool.eq_false_iff.mpr hv))

/-- Every nonzero element is tagged on the pair of a generator only. -/
theorem State.BuiltBy.isGenerator_iff {g : Element} {u : State} (hu : u.BuiltBy g) :
    (∀ v, v ≠ 0x00#8 → u.tagged v = true) ↔ IsGenerator g := by
  refine ⟨fun hall => isGenerator_of_powers (fun v hv => ?powers) ?nonzero,
    fun hg v hv => hu.holdsPowersOf.tagged_of_ne_zero hg hv⟩
  case powers =>
    obtain ⟨-, i, -, hi, rfl⟩ := (hu.tagged_iff v).mp (hall v hv)
    exact ⟨i, (hu.holdsPowersOf.expAt_eq_power hi).symm⟩
  case nonzero =>
    rintro rfl
    exact Bool.false_ne_true ((hu.not_tagged_of_zero 0x01#8).symm.trans (hall 0x01#8 (by decide)))

/-- Settles O34: `EXP[1]` is the operand, `EXP[255]` its power 255, and `RDLOG` answers where a tag is set. -/
theorem readsRevealTheBuild : Obligations.ReadsRevealTheBuild := by
  unfold Obligations.ReadsRevealTheBuild
  intro g u hu
  have hpow := hu.holdsPowersOf
  refine ⟨?first, ?last, (hu.rdlog_raises_noLog_iff _).mpr (.inl rfl), fun v => ?read, ?all⟩
  case first => exact hpow.exp_one ▸ rdexp_answers_expAt hu.tv_eq 0x01#8
  case last =>
    have hread := rdexp_answers_expAt hu.tv_eq 0xFF#8
    rw [hpow.expAt_eq_power (by decide)] at hread
    split
    · next hg =>
      subst hg
      rwa [power_zero_base (by decide)] at hread
    · next hg => rwa [← power_groupOrder hg]
  case read => rw [rdlog_answers_iff hu.tv_eq, hu.tagged_iff]
  case all =>
    simp only [rdlog_answers_iff hu.tv_eq]
    exact hu.isGenerator_iff

section
variable {g : Element} {u : State} (hu : u.BuiltBy g) (hg : IsGenerator g)
include hu hg

/-- The logarithm of each entry of `EXP` is its index, that of entry 255 is 0 (R113). -/
theorem State.BuiltBy.logAt_expAt (i : Element) :
    u.logAt (u.expAt i.toNat) = if i = 0xFF#8 then 0x00#8 else i := by
  have hpow := hu.holdsPowersOf
  split
  · next hi =>
    subst hi
    have hwrap : u.expAt (0xFF#8 : Element).toNat = u.expAt 0 :=
      (hpow.expAt_eq_expAt_iff hg (by decide) (by decide)).mpr (by decide)
    rw [hwrap]
    exact BitVec.eq_of_toNat_eq (hpow.logAt_expAt hg (by decide))
  · next hi => exact BitVec.eq_of_toNat_eq (hpow.logAt_expAt hg (by bv_omega))

theorem State.BuiltBy.expAt_logAt {v : Element} (hv : v ≠ 0x00#8) : u.expAt (u.logAt v).toNat = v := by
  have hpow := hu.holdsPowersOf
  obtain ⟨i, hi, rfl⟩ := hpow.exists_expAt_eq hg hv
  rw [hpow.logAt_expAt hg hi]

end

/-- Settles O35: on a generator's pair `LOG` and `EXP` are inverse to each other, index 255 apart. -/
theorem readRoundTrips : Obligations.ReadRoundTrips := by
  unfold Obligations.ReadRoundTrips
  intro g u hg hu
  have htag {v : Element} (hv : v ≠ 0x00#8) : u.tagged v = true := hu.isGenerator_iff.mpr hg v hv
  refine ⟨fun i => ⟨_, rdexp_answers_expAt hu.tv_eq i, ?log⟩, fun v hv =>
    ⟨_, rdlog_answers_logAt hu.tv_eq (htag hv), ?exp⟩⟩
  case log =>
    rw [← hu.logAt_expAt hg i]
    exact rdlog_answers_logAt hu.tv_eq (htag (hu.holdsPowersOf.expAt_ne_zero hg (Nat.le_of_lt_succ i.isLt)))
  case exp =>
    have hread := rdexp_answers_expAt hu.tv_eq (u.logAt v)
    rwa [hu.expAt_logAt hg hv] at hread

end Sys2Proof.Machine

/-! PROOFS. `mulp` is the product of the operands' polynomials reduced modulo x^8+x^4+x^3+x+1 (R70). -/

namespace Sys2Proof.Machine

section
open Polynomial

theorem polynomialOf_zero (n : Nat) : polynomialOf (0#n) = 0 := by
  simp [polynomialOf]

/-- Exclusive-or adds polynomials. -/
theorem polynomialOf_xor {n : Nat} (a b : BitVec n) : polynomialOf (a ^^^ b) = polynomialOf a + polynomialOf b := by
  simp only [polynomialOf, ← Finset.sum_add_distrib, BitVec.getLsbD_xor]
  refine Finset.sum_congr rfl fun i _ => ?_
  cases a.getLsbD i <;> cases b.getLsbD i <;> simp [CharTwo.add_self_eq_zero]

theorem degree_polynomialOf_lt {n : Nat} (a : BitVec n) : (polynomialOf a).degree < n := by
  rw [← mem_degreeLT]
  refine Submodule.sum_mem _ fun i hi => ?_
  split
  · exact mem_degreeLT.mpr ((degree_X_pow_le i).trans_lt (by exact_mod_cast Finset.mem_range.mp hi))
  · exact Submodule.zero_mem _

theorem polynomialOf_one : polynomialOf 0x01#8 = 1 := by
  simp [polynomialOf]

/-- `MODULUS` is x^8 and `RED` (R3, R8). -/
theorem polynomialOf_modulus : polynomialOf Config.modulus = X ^ 8 + polynomialOf Config.red := by
  simp [polynomialOf, Config.modulus, Config.red, Finset.sum_range_succ]
  ring

theorem monic_polynomialOf_modulus : (polynomialOf Config.modulus).Monic :=
  polynomialOf_modulus ▸ monic_X_pow_add (degree_polynomialOf_lt Config.red)

theorem degree_polynomialOf_modulus : (polynomialOf Config.modulus).degree = 8 := by
  rw [polynomialOf_modulus, degree_add_eq_left_of_degree_lt] <;> rw [degree_X_pow]
  · rfl
  · exact degree_polynomialOf_lt Config.red

/-- An element is reduced already. -/
theorem polynomialOf_modByMonic (a : Element) : polynomialOf a %ₘ polynomialOf Config.modulus = polynomialOf a := by
  rw [modByMonic_eq_self_iff monic_polynomialOf_modulus, degree_polynomialOf_modulus]
  exact degree_polynomialOf_lt a

/-- The shift of R69 moves the coefficient of x^7 out of the element. -/
theorem polynomialOf_shiftLeft_one (a : Element) :
    polynomialOf (a <<< 1) + (if a.getLsbD 7 then X ^ 8 else 0) = X * polynomialOf a := by
  simp [polynomialOf, Finset.sum_range_succ, mul_add, pow_succ']

/-- One iteration multiplies by x and reduces (R68, R69). -/
theorem polynomialOf_timesX (a : Element) :
    polynomialOf (timesX a) = (X * polynomialOf a) %ₘ polynomialOf Config.modulus := by
  refine (div_modByMonic_unique (if a.getLsbD 7 then 1 else 0) _ monic_polynomialOf_modulus ⟨?eq, ?degree⟩).2.symm
  case eq =>
    rw [timesX_eq, polynomialOf_xor, ← polynomialOf_shiftLeft_one, polynomialOf_modulus, selected]
    split
    · rw [mul_one, add_assoc, add_left_comm (polynomialOf Config.red), CharTwo.add_self_eq_zero, add_zero]
    · rw [polynomialOf_zero, mul_zero, add_zero]
  case degree => exact degree_polynomialOf_modulus ▸ degree_polynomialOf_lt (timesX a)

theorem polynomialOf_iterate_timesX (i : Nat) (a : Element) :
    polynomialOf (timesX^[i] a) = (X ^ i * polynomialOf a) %ₘ polynomialOf Config.modulus := by
  induction i with
  | zero => rw [Function.iterate_zero_apply, pow_zero, one_mul, polynomialOf_modByMonic]
  | succ i ih =>
    rw [Function.iterate_succ_apply', polynomialOf_timesX, ih, mul_modByMonic,
      (modByMonic_eq_self_iff monic_polynomialOf_modulus).mpr (degree_modByMonic_lt _ monic_polynomialOf_modulus),
      ← mul_modByMonic, ← mul_assoc, ← pow_succ']

/-- The reading of R70, by the powers of x that make up the second operand. -/
theorem polynomialOf_mulp (a b : Element) :
    polynomialOf (mulp a b) = (polynomialOf a * polynomialOf b) %ₘ polynomialOf Config.modulus := by
  induction b using element_xor_induction with
  | hxor b b' hb hb' => rw [mulp_xor_right, polynomialOf_xor, polynomialOf_xor, mul_add, add_modByMonic, hb, hb']
  | hzero => rw [mulp_zero_right, polynomialOf_zero, mul_zero, zero_modByMonic]
  | hpow i hi =>
    rw [mulp_iterate_timesX_right a i hi, polynomialOf_iterate_timesX, polynomialOf_iterate_timesX, polynomialOf_one,
      mul_one, mul_comm (X ^ i), mul_modByMonic, mul_modByMonic (polynomialOf a) (X ^ i %ₘ _),
      (modByMonic_eq_self_iff monic_polynomialOf_modulus).mpr (degree_modByMonic_lt (X ^ i) monic_polynomialOf_modulus)]

end

/-- Settles O12: the loop is linear in its second operand, and for a power of x it is as many shifts and reductions. -/
theorem mulpAnswersFieldProduct : Obligations.MulpAnswersFieldProduct := by
  unfold Obligations.MulpAnswersFieldProduct
  intro a b s
  have hlow : (elementData (mulp a b)).extractLsb' 0 8 = mulp a b := by
    refine BitVec.eq_of_getLsbD_eq fun i hi => ?_
    simp [elementData, hi]
    omega
  have hhigh : (elementData (mulp a b)).extractLsb' 8 248 = 0#248 := by
    refine BitVec.eq_of_getLsbD_eq fun i hi => ?_
    simp [elementData]
  exact ⟨_, mulp_answers a b s, hhigh, by rw [hlow, polynomialOf_mulp]⟩

end Sys2Proof.Machine

/-! PROOFS. The assembler checks before it encodes, and reads the usual form of every command back (R53, R62). -/

namespace Sys2Proof.Machine

/-! What the assembler makes of a source command. -/

theorem assemble_of_out_of_range {c : SourceCommand} (hcount : c.countOk = true) (hrange : c.rangeOk = false) :
    assemble c = .error .operandRange := by
  rw [assemble, if_neg (by simp [hcount]), if_pos hrange]

theorem assemble_of_wellFormed {c : SourceCommand} (h : c.wellFormed = true) {i : Instr}
    (hi : operandsInto c.mnemonic c.operands = some i) : assemble c = .ok (encode i) := by
  obtain ⟨hcount, hrange⟩ := Bool.and_eq_true_iff.mp h
  rw [assemble, if_neg (by simp [hcount]), if_neg (by simp [hrange]), hi]

/-- Operands of the right number below 256 fill the fields of the mnemonic's command as they are. -/
theorem exists_operandsInto {m : Mnemonic} {ns : List Nat} (hlen : ns.length = m.arity) (hrange : ∀ n ∈ ns, n < 256) :
    ∃ i, operandsInto m ns = some i ∧ i.mnemonic = m ∧ (instrOperands i).map BitVec.toNat = ns := by
  cases m with
  | mulp | mult =>
    obtain ⟨a, b, rfl⟩ := List.length_eq_two.mp hlen
    obtain ⟨ha, hb⟩ : a < 256 ∧ b < 256 := by simpa using hrange
    exact ⟨_, rfl, rfl, by simp [instrOperands, Nat.mod_eq_of_lt, ha, hb]⟩
  | build | inv | rdexp | rdlog =>
    obtain ⟨a, rfl⟩ := List.length_eq_one_iff.mp hlen
    have ha : a < 256 := by simpa using hrange
    exact ⟨_, rfl, rfl, by simp [instrOperands, Nat.mod_eq_of_lt, ha]⟩
  | findgen =>
    obtain rfl := List.length_eq_zero_iff.mp hlen
    exact ⟨_, rfl, rfl, rfl⟩

/-- Settles O7: the range is checked before the operands go into their 8-bit fields. -/
theorem assemblerNeverTruncates : Obligations.AssemblerNeverTruncates := by
  unfold Obligations.AssemblerNeverTruncates
  refine ⟨fun c hcount hbig => assemble_of_out_of_range hcount ?range, fun c hwf => ?word⟩
  case range =>
    obtain ⟨n, hn, hbig⟩ := hbig
    exact List.all_eq_false.mpr ⟨n, hn, by simpa using Nat.succ_le_of_lt hbig⟩
  case word =>
    obtain ⟨hcount, hrange⟩ := Bool.and_eq_true_iff.mp hwf
    obtain ⟨i, hi, hmnemonic, hoperands⟩ :=
      exists_operandsInto (beq_iff_eq.mp hcount) (fun n hn => of_decide_eq_true (List.all_eq_true.mp hrange n hn))
    exact ⟨_, i, assemble_of_wellFormed hwf hi, decodeInvertsEncode i, hmnemonic, hoperands⟩

/-- A command as the source command that names it. -/
def sourceOf (i : Instr) : SourceCommand := ⟨i.mnemonic, (instrOperands i).map BitVec.toNat⟩

theorem sourceOf_wellFormed (i : Instr) : (sourceOf i).wellFormed = true := by
  have hcount : (sourceOf i).countOk = true := by cases i <;> rfl
  have hrange : (sourceOf i).rangeOk = true := by
    refine List.all_eq_true.mpr fun n hn => ?_
    obtain ⟨v, -, rfl⟩ := List.mem_map.mp hn
    exact decide_eq_true v.isLt
  rw [SourceCommand.wellFormed, hcount, hrange, Bool.and_self]

theorem assemble_sourceOf (i : Instr) : assemble (sourceOf i) = .ok (encode i) := by
  refine assemble_of_wellFormed (sourceOf_wellFormed i) ?_
  cases i <;> simp [sourceOf, operandsInto, Instr.mnemonic, instrOperands]

/-! Numerals in the usual form. -/

theorem digitValue_hexDigit {n : Nat} (h : n < 16) : digitValue (hexDigit n) = some n := by
  revert n
  decide

/-- No digit is a blank, a comma or the mark of a comment. -/
theorem hexDigit_ne {n : Nat} (h : n < 16) : hexDigit n ≠ ' ' ∧ hexDigit n ≠ ',' ∧ hexDigit n ≠ ';' := by
  revert n
  decide

theorem hexNumeral_ne (v : Element) : ∀ c ∈ hexNumeral v, c ≠ ' ' ∧ c ≠ ',' ∧ c ≠ ';' := by
  have hv := v.isLt
  have hhigh := hexDigit_ne (n := v.toNat / 16) (by omega)
  have hlow := hexDigit_ne (n := v.toNat % 16) (by omega)
  simp [hexNumeral, hhigh, hlow]

theorem numeral_hexNumeral (v : Element) : numeral (hexNumeral v) = some v.toNat := by
  have hv := v.isLt
  have hhigh := digitValue_hexDigit (n := v.toNat / 16) (by omega)
  have hlow := digitValue_hexDigit (n := v.toNat % 16) (by omega)
  change digitsValue 16 [hexDigit (v.toNat / 16), hexDigit (v.toNat % 16)] 0 = some v.toNat
  simp only [digitsValue, hhigh, hlow]
  rw [if_pos (by omega), if_pos (by omega), Option.some.injEq]
  omega

theorem numerals_map_hexNumeral (vs : List Element) : numerals (vs.map hexNumeral) = some (vs.map BitVec.toNat) := by
  induction vs with
  | nil => rfl
  | cons v vs ih => rw [List.map_cons, numerals, numeral_hexNumeral, ih, List.map_cons]

/-! Blanks and commas. -/

theorem dropBlanks_eq_self {cs : List Char} (h : cs.head? ≠ some ' ') : dropBlanks cs = cs := by
  cases cs with
  | nil => rfl
  | cons c cs => exact List.dropWhile_cons_of_neg (by simpa using h)

theorem trim_eq_self {cs : List Char} (hhead : cs.head? ≠ some ' ') (hlast : cs.getLast? ≠ some ' ') : trim cs = cs := by
  rw [trim, dropBlanks_eq_self hhead, dropBlanks_eq_self (by rwa [List.head?_reverse]), List.reverse_reverse]

theorem trim_blank_cons (cs : List Char) : trim (' ' :: cs) = trim cs := rfl

theorem trim_hexNumeral (v : Element) : trim (hexNumeral v) = hexNumeral v := by
  have hlow := hexDigit_ne (n := v.toNat % 16) (Nat.mod_lt _ (by decide))
  exact trim_eq_self (by simp [hexNumeral]) (by simp [hexNumeral, hlow])

theorem splitCommas_of_not_mem {cs : List Char} (h : ',' ∉ cs) : splitCommas cs = [cs] := by
  induction cs with
  | nil => rfl
  | cons c cs ih =>
    obtain ⟨hc, hcs⟩ := not_or.mp (h ∘ List.mem_cons.mpr)
    rw [splitCommas, if_neg (Ne.symm hc), ih hcs]

theorem splitCommas_append_comma {cs : List Char} (h : ',' ∉ cs) (ds : List Char) :
    splitCommas (cs ++ ',' :: ds) = cs :: splitCommas ds := by
  induction cs with
  | nil => rfl
  | cons c cs ih =>
    obtain ⟨hc, hcs⟩ := not_or.mp (h ∘ List.mem_cons.mpr)
    rw [List.cons_append, splitCommas, if_neg (Ne.symm hc), ih hcs]

/-! The operands of a line in the usual form. -/

theorem operandListText_cons_cons (v v' : Element) (vs : List Element) :
    operandListText (v :: v' :: vs) = hexNumeral v ++ ',' :: ' ' :: operandListText (v' :: vs) := by
  rw [operandListText, List.append_assoc]
  · rfl
  · nofun

theorem operandListText_no_comment (vs : List Element) : ';' ∉ operandListText vs := by
  have hnumeral (v : Element) : ';' ∉ hexNumeral v := fun h => (hexNumeral_ne v _ h).2.2 rfl
  induction vs with
  | nil => exact List.not_mem_nil
  | cons v vs ih =>
    cases vs with
    | nil => exact hnumeral v
    | cons v' vs =>
      rw [operandListText_cons_cons, List.mem_append, List.mem_cons, List.mem_cons]
      simp [hnumeral, ih]

theorem operandListText_getLast? (v : Element) (vs : List Element) :
    ∃ c, (operandListText (v :: vs)).getLast? = some c ∧ c ≠ ' ' := by
  induction vs generalizing v with
  | nil => exact ⟨_, rfl, (hexDigit_ne (Nat.mod_lt _ (by decide))).1⟩
  | cons v' vs ih =>
    obtain ⟨c, hlast, hc⟩ := ih v'
    refine ⟨c, ?_, hc⟩
    rw [operandListText_cons_cons, List.getLast?_append_cons, List.getLast?_cons_cons, List.getLast?_cons, hlast,
      Option.getD_some]

theorem splitCommas_operandListText (v : Element) (vs : List Element) :
    splitCommas (' ' :: operandListText (v :: vs)) = (v :: vs).map fun x => ' ' :: hexNumeral x := by
  have hcomma (x : Element) : ',' ∉ ' ' :: hexNumeral x := by
    rw [List.mem_cons, not_or]
    exact ⟨by decide, fun h => (hexNumeral_ne x _ h).2.1 rfl⟩
  induction vs generalizing v with
  | nil => exact splitCommas_of_not_mem (hcomma v)
  | cons v' vs ih =>
    rw [operandListText_cons_cons, ← List.cons_append, splitCommas_append_comma (hcomma v), ih,
      List.map_cons (l := v' :: vs)]

theorem operandTexts_operandListText (v : Element) (vs : List Element) :
    operandTexts (' ' :: operandListText (v :: vs)) = (v :: vs).map hexNumeral := by
  obtain ⟨c, hlast, hc⟩ := operandListText_getLast? v vs
  have hhead : (operandListText (v :: vs)).head? = some '0' := by cases vs <;> rfl
  have htrim : trim (operandListText (v :: vs)) = operandListText (v :: vs) :=
    trim_eq_self (by simp [hhead]) (by simpa [hlast] using hc)
  have hne : operandListText (v :: vs) ≠ [] := fun h => by simp [h] at hhead
  rw [operandTexts, trim_blank_cons, htrim, if_neg hne, splitCommas_operandListText, List.map_map]
  exact List.map_congr_left fun x _ => (trim_blank_cons _).trans (trim_hexNumeral x)

/-! The whole line. -/

theorem spelling_ne (m : Mnemonic) : ∀ c ∈ spelling m, c ≠ ' ' ∧ c ≠ ';' := by
  cases m <;> simp [spelling]

theorem mnemonicOf_spelling (m : Mnemonic) : mnemonicOf (spelling m) = some m := by
  cases m <;> decide

/-- A mnemonic, then nothing or a blank and operands, is read as the command of that mnemonic. -/
theorem parseLine_spelling_append (m : Mnemonic) {rest : List Char} {ns : List Nat}
    (hstart : rest = [] ∨ ∃ cs, rest = ' ' :: cs) (hcomment : ';' ∉ rest) (hlast : rest.getLast? ≠ some ' ')
    (hnum : numerals (operandTexts rest) = some ns) : parseLine (spelling m ++ rest) = .ok (some ⟨m, ns⟩) := by
  have hname : ∀ c ∈ spelling m, (c != ' ') = true := fun c hc => bne_iff_ne.mpr (spelling_ne m c hc).1
  have hstrip : stripComment (spelling m ++ rest) = spelling m ++ rest := by
    refine List.takeWhile_eq_self_iff.mpr fun c hc => bne_iff_ne.mpr ?_
    obtain hc | hc := List.mem_append.mp hc
    · exact (spelling_ne m c hc).2
    · rintro rfl
      exact hcomment hc
  have htrim : trim (spelling m ++ rest) = spelling m ++ rest := by
    refine trim_eq_self (by cases m <;> simp [spelling]) ?_
    rw [List.getLast?_append]
    cases hr : rest.getLast? with
    | none => cases m <;> decide
    | some c => simpa [hr] using hlast
  have htake : rest.takeWhile (fun c => c != ' ') = [] := by
    obtain rfl | ⟨cs, rfl⟩ := hstart <;> rfl
  have hdrop : rest.dropWhile (fun c => c != ' ') = rest := by
    obtain rfl | ⟨cs, rfl⟩ := hstart <;> rfl
  have hne : spelling m ++ rest ≠ [] := by cases m <;> nofun
  rw [parseLine, hstrip, htrim, if_neg hne, List.takeWhile_append_of_pos hname, htake, List.append_nil,
    mnemonicOf_spelling, List.dropWhile_append_of_pos hname, hdrop]
  simp only [hnum]

theorem parseLine_instrText (i : Instr) : parseLine (instrText i) = .ok (some (sourceOf i)) := by
  rw [instrText, sourceOf]
  split
  · next hnone =>
    rw [hnone]
    have h := parseLine_spelling_append i.mnemonic (rest := []) (.inl rfl) List.not_mem_nil nofun rfl
    rwa [List.append_nil] at h
  · next hsome =>
    obtain ⟨v, vs, hvs⟩ := List.exists_cons_of_ne_nil hsome
    obtain ⟨c, hlast, hc⟩ := operandListText_getLast? v vs
    rw [hvs, List.append_assoc]
    refine parseLine_spelling_append i.mnemonic (.inr ⟨_, rfl⟩) ?_ ?_ ?_
    · exact fun h => (List.mem_cons.mp h).elim (by decide) (operandListText_no_comment _)
    · simpa [List.getLast?_cons, hlast] using hc
    · rw [List.singleton_append, operandTexts_operandListText, numerals_map_hexNumeral]

/-- Settles O6: the line is read back as the source command of its instruction, which the encoder makes a word. -/
theorem assemblerMakesTheWord : Obligations.AssemblerMakesTheWord := by
  unfold Obligations.AssemblerMakesTheWord
  intro i
  rw [assembleLine, parseLine_instrText]
  simp only [assemble_sourceOf]

end Sys2Proof.Machine
